-- ==== Sys2Proof/Word.lean ====
section
/-! DEFINITION. The one word type of the core: a byte (00_scope.md R7, R9). -/

namespace Sys2Proof

/-- Every stored value of the core (register, memory cell, program counter, operand) is an unsigned
number from 0 to 255 (00_scope.md R7, R9). -/
abbrev Byte := BitVec 8

end Sys2Proof
end

