-- ==== Sys2Proof/Config.lean ====
section
/-! DEFINITION. The implementation parameters of 00_scope.md R6, the names an opcode map is a map of, and the
model's one free value. -/

namespace Sys2Proof

/-- `NREG`: the number of general registers (00_scope.md R6). -/
abbrev Config.numRegs : Nat := 8

/-- `MEMSIZE`: the number of memory cells (00_scope.md R6; 20_memory.md R50). -/
abbrev Config.memSize : Nat := 256

/-- `SPIDX`: the index of the stack pointer register (00_scope.md R6). -/
abbrev Config.spIndex : Fin Config.numRegs := 7

/-- What a cell that nothing has written reads as: 0 (10_state.md R38). -/
abbrev Config.unwrittenByte : Byte := 0

/-- The free value of the model: what cell `addr` holds after a load of an image that does not fit.
"memory contents after a failed load are not defined by this spec" (60_exceptions.md R217;
93_implementation_defined.md U19). No body: nothing can be proved of it. Log entry 6. -/
opaque Config.failedLoadByte : List Byte → Nat → Byte

/-- The 15 mnemonics of the dispatcher's table (30_encoding.md R84), in the order of opcode_table.json. -/
inductive Mnemonic where
  | NOP | HLT | RET | PUSH | POP | PRN | CALL | JMP | JEQ | JNE | LDI | ADD | SUB | MUL | CMP
deriving DecidableEq, Repr

/-- All 15 mnemonics (`NOPCODES`, 00_scope.md R6). -/
def Mnemonic.all : List Mnemonic :=
  [.NOP, .HLT, .RET, .PUSH, .POP, .PRN, .CALL, .JMP, .JEQ, .JNE, .LDI, .ADD, .SUB, .MUL, .CMP]

/-- An opcode map `OPC`: the `OPEN` parameter of 00_scope.md R6, from mnemonic to opcode byte. It is configuration,
"fixed before reset and never changed" (10_state.md R40), and no part of the state. -/
abbrev OpcodeMap := Mnemonic → Byte

end Sys2Proof
end

