-- ==== Sys2Proof/Syntax.lean ====
section
/-! DEFINITION. The instruction set: one constructor for each row of spec/opcode_table.json (30_encoding.md R84). -/

namespace Sys2Proof

/-- An instruction with the operand bytes its handler uses (30_encoding.md R84). An operand is one whole byte, and
which of three readings it has (register index, immediate, pointer) is fixed by the instruction (R83). A register
index may be any byte here: it is checked when the register is accessed, not at decode (10_state.md R24). -/
inductive Instr where
  /-- no operation (45_system.md R201) -/
  | nop
  /-- halt (45_system.md R200) -/
  | hlt
  /-- pop the top of the stack into `pc` (44_control.md R181) -/
  | ret
  /-- push the register whose index is in cell `a` (43_stack.md R170) -/
  | push (a : Byte)
  /-- pop into the register whose index is in cell `a` (43_stack.md R171) -/
  | pop (a : Byte)
  /-- print register `a` (42_data_io.md R161) -/
  | prn (a : Byte)
  /-- push the byte `b`, jump to the register whose index is in cell `a` (44_control.md R180) -/
  | call (a b : Byte)
  /-- jump to register `a` (44_control.md R182) -/
  | jmp (a : Byte)
  /-- jump to register `a` if `E` (44_control.md R183) -/
  | jeq (a : Byte)
  /-- jump to register `a` if not `E` (44_control.md R184) -/
  | jne (a : Byte)
  /-- load the immediate `b` into register `a` (42_data_io.md R160) -/
  | ldi (a b : Byte)
  /-- add register `b` into register `a` (41_alu.md R150) -/
  | add (a b : Byte)
  /-- subtract register `b` from register `a` (41_alu.md R151) -/
  | sub (a b : Byte)
  /-- multiply register `a` by register `b` (41_alu.md R152) -/
  | mul (a b : Byte)
  /-- compare registers `a` and `b` for equality (41_alu.md R153) -/
  | cmp (a b : Byte)
deriving DecidableEq, Repr

end Sys2Proof
end

