-- ==== Sys2Proof/WellFormed.lean ====
section
/-! DEFINITION. Well-formed instructions: those whose direct register operands name registers. An ill-formed
instruction is still decoded and still has a meaning (it raises `OutOfRange` when the register is accessed). -/

namespace Sys2Proof

/-- The operand bytes that are register indices themselves (30_encoding.md R83, first row of its table). The pointer
operand of PUSH, POP and CALL is a memory address, the `b` of LDI and CALL an immediate: any byte will do. -/
def Instr.registerOperands : Instr → List Byte
  | .nop | .hlt | .ret => []
  | .push _ | .pop _ | .call _ _ => []
  | .prn a | .jmp a | .jeq a | .jne a => [a]
  | .ldi a _ => [a]
  | .add a b | .sub a b | .mul a b | .cmp a b => [a, b]

/-- A register index is valid when it is in 0 to 7 (10_state.md R24). -/
def validIndex (i : Byte) : Bool := decide (i.toNat < Config.numRegs)

/-- Every direct register operand is a valid index: the instructions that the notation of 30_encoding.md R101, with
its registers `R0` to `R7`, can write. -/
def Instr.wf (i : Instr) : Bool := i.registerOperands.all validIndex

end Sys2Proof
end

