-- ==== Sys2Proof/Decode.lean ====
section
/-! DEFINITION. The opcode byte and its two control fields, the opcode map and its default, the decoder (total on any
bytes, rejecting by name) and the encoder. -/

namespace Sys2Proof

/-- `operand_count`: bits 7:6 of the opcode byte, `(opcode >> 6) & 0b11` (30_encoding.md R81). -/
def operandCount (op : Byte) : Nat := ((op >>> 6) &&& 3).toNat

/-- `sets_pc`: bit 4 of the opcode byte, `(opcode >> 4) & 0b1` (30_encoding.md R81). -/
def setsPc (op : Byte) : Bool := ((op >>> 4) &&& 1) == 1

/-- The operand count that a mnemonic's opcode byte must have; `none` where R84 says "free". -/
def Mnemonic.requiredCount : Mnemonic → Option Nat
  | .NOP => some 0
  | .HLT => some 0
  | .PRN => some 1
  | .LDI => some 2
  | .ADD => some 2
  | .SUB => some 2
  | .MUL => some 2
  | .CMP => some 2
  | .PUSH => some 1
  | .POP => some 1
  | .CALL => none
  | .RET => none
  | .JMP => none
  | .JEQ => none
  | .JNE => none

/-- The `sets_pc` bit that a mnemonic's opcode byte must have (30_encoding.md R84). -/
def Mnemonic.requiredSetsPc : Mnemonic → Bool
  | .CALL | .RET | .JMP | .JEQ | .JNE => true
  | .NOP | .HLT | .PRN | .LDI | .ADD | .SUB | .MUL | .CMP | .PUSH | .POP => false

/-- The two conditions of 30_encoding.md R85 on an opcode map: (i) the 15 values are distinct, (ii) the control fields
are as R84 requires wherever they are not free. -/
structure OpcodeMap.Valid (opc : OpcodeMap) : Prop where
  distinct : ∀ m n : Mnemonic, opc m = opc n → m = n
  count : ∀ (m : Mnemonic) (c : Nat), m.requiredCount = some c → operandCount (opc m) = c
  sets : ∀ m : Mnemonic, setsPc (opc m) = m.requiredSetsPc

/-- The default opcode map of 30_encoding.md R85, which opcode_table.json uses. The spec marks the values as taken
from general knowledge (92_eei_decisions.md D2). Log entry 1 (PRESUMED). -/
def defaultOpc : OpcodeMap
  | .NOP => 0b00000000#8
  | .HLT => 0b00000001#8
  | .RET => 0b00010001#8
  | .PUSH => 0b01000101#8
  | .POP => 0b01000110#8
  | .PRN => 0b01000111#8
  | .CALL => 0b01010000#8
  | .JMP => 0b01010100#8
  | .JEQ => 0b01010101#8
  | .JNE => 0b01010110#8
  | .LDI => 0b10000010#8
  | .ADD => 0b10100000#8
  | .SUB => 0b10100001#8
  | .MUL => 0b10100010#8
  | .CMP => 0b10100111#8

/-- Why bytes do not decode. -/
inductive DecodeError where
  /-- the opcode byte is absent from the dispatch table (30_encoding.md R87): the cycle raises `UnknownInstruction` -/
  | unknownInstruction (byte : Byte)
  /-- fewer than the three bytes a cycle always reads (40_cycle_dispatch.md R113): `given` of them -/
  | latchMissing (given : Nat)
deriving DecidableEq, Repr

/-- The mnemonic whose opcode byte is `op`: the whole byte is matched, no don't-care bits (30_encoding.md R86). -/
def lookup (opc : OpcodeMap) (op : Byte) : Option Mnemonic :=
  Mnemonic.all.find? (fun m => opc m == op)

/-- The instruction of a mnemonic, given the two operand latches; a latch its handler's signature does not name is
ignored (30_encoding.md R84; 40_cycle_dispatch.md R117). -/
def Mnemonic.withLatches : Mnemonic → Byte → Byte → Instr
  | .NOP, _, _ => .nop
  | .HLT, _, _ => .hlt
  | .RET, _, _ => .ret
  | .PUSH, a, _ => .push a
  | .POP, a, _ => .pop a
  | .PRN, a, _ => .prn a
  | .CALL, a, b => .call a b
  | .JMP, a, _ => .jmp a
  | .JEQ, a, _ => .jeq a
  | .JNE, a, _ => .jne a
  | .LDI, a, b => .ldi a b
  | .ADD, a, b => .add a b
  | .SUB, a, b => .sub a b
  | .MUL, a, b => .mul a b
  | .CMP, a, b => .cmp a b

/-- Decoding, step 4 of the cycle: the opcode byte and both latches give an instruction or `UnknownInstruction`
(30_encoding.md R86, R87; 40_cycle_dispatch.md R115). -/
def decodeWith (opc : OpcodeMap) (op a b : Byte) : Except DecodeError Instr :=
  match lookup opc op with
  | some m => .ok (m.withLatches a b)
  | none => .error (.unknownInstruction op)

/-- Decoding from the bytes at rising addresses: opcode, `a`, `b` (20_memory.md R54; 30_encoding.md R102). All three
are needed whatever the opcode (40_cycle_dispatch.md R113); further bytes are not looked at. -/
def decodeBytesWith (opc : OpcodeMap) : List Byte → Except DecodeError Instr
  | op :: a :: b :: _ => decodeWith opc op a b
  | short => .error (.latchMissing short.length)

/-- The decoder under the default map. -/
def decode (op a b : Byte) : Except DecodeError Instr := decodeWith defaultOpc op a b

/-- The mnemonic an instruction stands for. -/
def Instr.mnemonic : Instr → Mnemonic
  | .nop => .NOP
  | .hlt => .HLT
  | .ret => .RET
  | .push _ => .PUSH
  | .pop _ => .POP
  | .prn _ => .PRN
  | .call _ _ => .CALL
  | .jmp _ => .JMP
  | .jeq _ => .JEQ
  | .jne _ => .JNE
  | .ldi _ _ => .LDI
  | .add _ _ => .ADD
  | .sub _ _ => .SUB
  | .mul _ _ => .MUL
  | .cmp _ _ => .CMP

/-- The operand bytes that stand after the opcode, `a` first (30_encoding.md R80, R102). CALL has two, the second
beyond its nominal length (R90). -/
def Instr.operandBytes : Instr → List Byte
  | .nop | .hlt | .ret => []
  | .push a | .pop a | .prn a => [a]
  | .jmp a | .jeq a | .jne a => [a]
  | .call a b => [a, b]
  | .ldi a b | .add a b | .sub a b | .mul a b | .cmp a b => [a, b]

/-- The bytes of an instruction, at rising addresses (30_encoding.md R80, R90). -/
def encodeWith (opc : OpcodeMap) (i : Instr) : List Byte := opc i.mnemonic :: i.operandBytes

/-- The encoder under the default map. -/
def encode (i : Instr) : List Byte := encodeWith defaultOpc i

/-- Byte `k` (from the lowest address) of the instruction whose bits are `w`, `nbits` of them given by the table and
every bit above them 0: byte 0 is the opcode, then `a`, then `b`. -/
def tableByte (nbits w k : Nat) : Byte := BitVec.ofNat 8 ((w % 2 ^ nbits) / 256 ^ k)

/-- The instruction the decoder reads from a row's word, its bits numbered as spec/opcode_table.json numbers them. -/
def decodeTableWord (nbits w : Nat) : Option Instr :=
  (decode (tableByte nbits w 0) (tableByte nbits w 1) (tableByte nbits w 2)).toOption

end Sys2Proof
end

