-- ==== Sys2Proof/Machine/State.lean ====
section
/-! DEFINITION. The state of the core as plain data (10_state.md R20), the fatal-error records, the output events and
the state after reset. -/

namespace Sys2Proof.Machine

/-- Which bound an `OutOfRange` error is about (10_state.md R33; 60_exceptions.md R213). -/
inductive Bound where
  /-- a register index above 7 -/
  | reg
  /-- a memory address above 255 -/
  | mem
  /-- a program counter value above 255 -/
  | pc
deriving DecidableEq, Repr

/-- A fatal-error record: the value a `raise` puts into the `fault` latch of the state (10_state.md R33;
60_exceptions.md R214). The spec gives a fatal error an effect (the latch is set, earlier writes stay, no cycle is
enabled any more), so raising one is a NEXT state and no step ever answers `Outcome.fault`. Log entry 2. -/
inductive Fault where
  /-- Raised by step 4 of the cycle on a byte absent from the dispatch table (60_exceptions.md R211). Latched in a
  next state: neither safe nor unsafe, the spec's own effect. -/
  | unknownInstruction (addr byte : Byte)
  /-- Raised by the register index check, the address decoder and the `pc` update (60_exceptions.md R213). Latched in a
  next state. That `pc` and operand addresses fault and do not wrap is safe (92_eei_decisions.md D6). -/
  | outOfRange (bound : Bound) (value : Nat)
  /-- Raised by the ALU on a function name outside its set (60_exceptions.md R212); no instruction does it. Safe. -/
  | unsupportedOperation (name : String)
  /-- Raised by the load, before the first cycle, on an image longer than 256 bytes (60_exceptions.md R217). Safe. -/
  | programTooLarge (length : Nat)
deriving DecidableEq, Repr

/-- Why the model would give an instruction no meaning. No arm of `exec` and no meaning uses it. -/
inductive Refusal where
  /-- An instruction that has no meaning yet: raised by an arm of `exec` only, and by none now. Safe. -/
  | notModelled (mnemonic : String)
deriving DecidableEq, Repr

/-- The kinds of diagnostic event (10_state.md R37): the one there is. -/
inductive Diagnostic where
  /-- MOD met a zero divisor (60_exceptions.md R215) -/
  | divisionByZero
deriving DecidableEq, Repr

/-- An event of the output stream (10_state.md R37). -/
inductive Event where
  /-- appended by PRN -/
  | prn (v : Byte)
  /-- appended by the ALU's MOD function on a zero divisor -/
  | diag (d : Diagnostic)
deriving DecidableEq, Repr

/-- Memory: (address, byte) pairs in the canonical form `Memory.wf`. An address that is not listed reads as 0, the
reset value of every cell (10_state.md R38). -/
abbrev Memory := List Host.Cell

/-- The state of the core: "exactly this tuple; nothing else persists from one cycle to the next" (10_state.md R20). -/
structure State where
  /-- `x[0]` to `x[7]`; `x[7]` is `SP` (R21, R22) -/
  regs : Vector Byte 8
  /-- the program counter (R25) -/
  pc : Byte
  /-- the flag register `FL`; its bit 0 is `E` (R28) -/
  fl : Byte
  /-- the running flag (R31) -/
  running : Bool
  /-- the 256 memory cells (20_memory.md R50) -/
  mem : Memory
  /-- the fault latch (R33) -/
  fault : Option Fault
  /-- the output stream, oldest event first (R37) -/
  out : List Event
deriving DecidableEq, Repr

/-- The state after reset and before the load (10_state.md R38; 70_reset_and_hazards.md R250). -/
def State.reset : State where
  regs := Vector.replicate 8 0
  pc := 0
  fl := 0
  running := true
  mem := []
  fault := none
  out := []

end Sys2Proof.Machine
end

