-- ==== Sys2Proof/Machine/Memory.lean ====
section
/-! DEFINITION. The memory array: reading and writing one cell of a canonical list (20_memory.md R50, R59). -/

namespace Sys2Proof.Machine

/-- The byte in cell `a`; an address that is not listed reads as the reset value. -/
def Memory.read : Memory → Nat → Byte
  | [], _ => Config.unwrittenByte
  | (k, v) :: rest, a => if k = a then v else Memory.read rest a

/-- Put `v` into cell `a`, keeping addresses rising and listing no cell that holds the reset value. -/
def Memory.write : Memory → Nat → Byte → Memory
  | [], a, v => if v = Config.unwrittenByte then [] else [(a, v)]
  | (k, w) :: rest, a, v =>
    if a < k then
      if v = Config.unwrittenByte then (k, w) :: rest else (a, v) :: (k, w) :: rest
    else if a = k then
      if v = Config.unwrittenByte then rest else (a, v) :: rest
    else (k, w) :: Memory.write rest a v

/-- The canonical form from address `lo` on: addresses strictly rising and below `MEMSIZE`, no listed cell at the reset
value. -/
def Memory.wfFrom : Nat → Memory → Bool
  | _, [] => true
  | lo, (k, v) :: rest =>
    decide (lo ≤ k) && decide (k < Config.memSize) && decide (v ≠ Config.unwrittenByte) && Memory.wfFrom (k + 1) rest

/-- The canonical form: equal memories are equal lists. -/
def Memory.wf (m : Memory) : Bool := Memory.wfFrom 0 m

/-- Write bytes contiguously from address `a` up. -/
def Memory.writeList : Memory → Nat → List Byte → Memory
  | m, _, [] => m
  | m, a, v :: vs => Memory.writeList (m.write a v) (a + 1) vs

end Sys2Proof.Machine
end

