-- ==== Sys2Proof/Machine/Flags.lean ====
section
/-! DEFINITION. The flag register: the one flag that exists, `E`, and its one computation (10_state.md R28, R29). -/

namespace Sys2Proof.Machine

/-- `FL.E`, bit 0 of `FL` (10_state.md R28; the position is 92_eei_decisions.md D3, log entry 7). -/
def State.e (s : State) : Bool := s.fl.getLsbD 0

/-- `FL` with `E` set to `v` and bits 7:1 kept: CMP writes "not `FL[7:1]`" (41_alu.md R147). -/
def withE (fl : Byte) (v : Bool) : Byte := (fl &&& 0xFE#8) ||| (if v then 1#8 else 0#8)

/-- Write `FL.E`. -/
def State.setE (s : State) (v : Bool) : State := { s with fl := withE s.fl v }

/-- The equality flag of two register values (41_alu.md R147). -/
def equalFlag (p q : Byte) : Bool := p == q

end Sys2Proof.Machine
end

