-- ==== Sys2Proof/Machine/Ops.lean ====
section
/-! DEFINITION. The pseudocode primitives of 00_scope.md R10 over the state, raising a fatal error as one shared
operation, and the automatic advance. -/

namespace Sys2Proof.Machine

/-! ### Accessors of the state -/

/-- `x[i]` for a valid index. -/
def State.reg (s : State) (i : Fin 8) : Byte := s.regs[i]

/-- Write `x[i]` for a valid index. -/
def State.setReg (s : State) (i : Fin 8) (v : Byte) : State := { s with regs := s.regs.set i v }

/-- `SP`, the alias of `x[7]` (00_scope.md R10). -/
def State.sp (s : State) : Byte := s.reg Config.spIndex

/-- The byte in memory cell `a`. -/
def State.byteAt (s : State) (a : Nat) : Byte := s.mem.read a

/-- Write the memory cell `a`. -/
def State.setByte (s : State) (a : Nat) (v : Byte) : State := { s with mem := s.mem.write a v }

/-- A cycle is enabled exactly when `running = true` and `fault = none` (40_cycle_dispatch.md R110). -/
def State.enabled (s : State) : Bool := s.running && s.fault.isNone

/-- `(SP - 1) mod 256`: where PUSH and CALL store (43_stack.md R170; 44_control.md R180). 0 wraps to 255
(20_memory.md R53). -/
def State.pushSlot (s : State) : Byte := s.sp - 1

/-- `(SP + 1) mod 256`: what POP and RET leave in `SP`. 255 wraps to 0 (20_memory.md R53). -/
def State.popNext (s : State) : Byte := s.sp + 1

/-! ### Part of a cycle, and a fatal error -/

/-- A part of a cycle: statements in pseudocode order (00_scope.md R11). `.ok` is the state after the last statement;
`.error` is the state at the `raise`, with everything written before it kept. -/
abbrev Exec := EStateM Fault State

/-- Taking a fatal error: "`raise K(info)` does exactly this: `fault <- K(info)`; the cycle ends at that point"
(60_exceptions.md R216). Nothing is saved, nothing else changes, and there is no return (R220). -/
def State.latch (s : State) (k : Fault) : State := { s with fault := some k }

/-- The outcome of a cycle that raises `k` in state `s`: one transition (40_cycle_dispatch.md R119). -/
def takeFault (k : Fault) (s : State) : Host.Outcome State Fault Refusal := .next (s.latch k)

/-- The outcome of running the rest of a cycle from `s`: it returns, or it raises. -/
def runCycle (c : Exec Unit) (s : State) : Host.Outcome State Fault Refusal :=
  match c.run s with
  | .ok _ t => .next t
  | .error k t => takeFault k t

/-- `raise K(info)` inside a cycle. -/
def raise {α : Type} (k : Fault) : Exec α := fun s => .error k s

/-! ### Primitives -/

/-- Read `x[i]`; an index above 7 raises `OutOfRange(reg, i)` (00_scope.md R10; 10_state.md R24). -/
def readReg (i : Nat) : Exec Byte := fun s =>
  if h : i < 8 then .ok (s.reg ⟨i, h⟩) s else .error (.outOfRange .reg i) s

/-- Write `x[i]`; an index above 7 raises `OutOfRange(reg, i)` and nothing is written. -/
def writeReg (i : Nat) (v : Byte) : Exec Unit := fun s =>
  if h : i < 8 then .ok () (s.setReg ⟨i, h⟩ v) else .error (.outOfRange .reg i) s

/-- Read `SP`; never raises. -/
def readSp : Exec Byte := fun s => .ok s.sp s

/-- Write `SP`; never raises. -/
def writeSp (v : Byte) : Exec Unit := fun s => .ok () (s.setReg Config.spIndex v)

/-- `MemRead(addr, 1)`; an address above 255 raises `OutOfRange(mem, addr)` (20_memory.md R52). -/
def memRead (a : Nat) : Exec Byte := fun s =>
  if a < Config.memSize then .ok (s.byteAt a) s else .error (.outOfRange .mem a) s

/-- `MemWrite(addr, 1, v)`; an address above 255 raises `OutOfRange(mem, addr)` and nothing is written. -/
def memWrite (a : Nat) (v : Byte) : Exec Unit := fun s =>
  if a < Config.memSize then .ok () (s.setByte a v) else .error (.outOfRange .mem a) s

/-- Read `pc`. -/
def readPc : Exec Nat := fun s => .ok s.pc.toNat s

/-- `pc <- target`; a target above 255 raises `OutOfRange(pc, target)` and `pc` keeps its value (10_state.md R27). -/
def writePc (target : Nat) : Exec Unit := fun s =>
  if target < 256 then .ok () { s with pc := BitVec.ofNat 8 target } else .error (.outOfRange .pc target) s

/-- Read `FL.E`. -/
def readE : Exec Bool := fun s => .ok s.e s

/-- Write `FL.E`. -/
def writeE (v : Bool) : Exec Unit := fun s => .ok () (s.setE v)

/-- `Emit(e)`: append to the output stream (10_state.md R37). -/
def emit (e : Event) : Exec Unit := fun s => .ok () { s with out := s.out ++ [e] }

/-- `running <- false`: the halt handler's effect (10_state.md R31). -/
def halt : Exec Unit := fun s => .ok () { s with running := false }

/-- `(SP - 1) mod 256` of the current state. -/
def readPushSlot : Exec Byte := fun s => .ok s.pushSlot s

/-- `(SP + 1) mod 256` of the current state. -/
def readPopNext : Exec Byte := fun s => .ok s.popNext s

/-- Step 6 of the cycle, the automatic advance (40_cycle_dispatch.md R116): from the control bits of the opcode byte,
and from `pc` as it was at the start (no handler with `sets_pc` = 0 writes it). -/
def advance (op : Byte) : Exec Unit :=
  if setsPc op then pure ()
  else do
    let pc ← readPc
    writePc (pc + operandCount op + 1)

end Sys2Proof.Machine
end

