-- ==== Sys2Proof/Machine/Operands.lean ====
section
/-! DEFINITION. The three readings of an operand byte (30_encoding.md R83). -/

namespace Sys2Proof.Machine

/-- A register operand read as a source: the byte is the index itself. -/
def readOperand (a : Byte) : Exec Byte := readReg a.toNat

/-- A register operand written as a destination. -/
def writeOperand (a : Byte) (v : Byte) : Exec Unit := writeReg a.toNat v

/-- An immediate operand: the byte itself is the value, whole and unsigned. -/
def immediate (b : Byte) : Byte := b

/-- A pointer operand: the byte is a memory address, and the cell there holds a register index
(30_encoding.md R83: "double indirection"). The index is not checked here but where it is used. -/
def pointerIndex (a : Byte) : Exec Nat := do
  let r ← memRead a.toNat
  return r.toNat

/-- The register index a pointer operand names in state `s`. -/
def State.pointed (s : State) (a : Byte) : Nat := (s.byteAt a.toNat).toNat

end Sys2Proof.Machine
end

