-- ==== Sys2Proof/Machine/Alu.lean ====
section
/-! DEFINITION. The ALU block with its eleven functions (41_alu.md part 1), and the four instructions that use it:
ADD, SUB, MUL, CMP (part 2). -/

namespace Sys2Proof.Machine

/-- The closed function set of the ALU (41_alu.md R131). -/
inductive AluFn where
  | add | sub | mul | and | or | xor | not | shl | shr | mod | cmp
deriving DecidableEq, Repr

/-- A function of two registers that writes the first: both inputs are read before the result is written, `x[a]`
first (41_alu.md R130, R149). -/
def aluBinary (f : Byte → Byte → Byte) (a b : Byte) : Exec Unit := do
  let p ← readOperand a
  let q ← readOperand b
  writeOperand a (f p q)

/-- NOT reads and writes `x[a]`; `b` is neither used nor checked (41_alu.md R141). -/
def aluNot (a : Byte) : Exec Unit := do
  let p ← readOperand a
  writeOperand a (255 - p)

/-- CMP writes `FL.E` and nothing else (41_alu.md R147). -/
def aluCmp (a b : Byte) : Exec Unit := do
  let p ← readOperand a
  let q ← readOperand b
  writeE (equalFlag p q)

/-- MOD: the unsigned remainder, or a diagnostic and a graceful halt on a zero divisor (41_alu.md R145). -/
def aluMod (a b : Byte) : Exec Unit := do
  let p ← readOperand a
  let q ← readOperand b
  if q = 0 then
    emit (.diag .divisionByZero)
    halt
  else writeOperand a (p % q)

/-- A request `(f, a, b)` to the ALU (41_alu.md R130). SHL and SHR compute and discard: they read and write nothing
(R142, R143). -/
def aluRequest (f : AluFn) (a b : Byte) : Exec Unit :=
  match f with
  | .add => aluBinary (· + ·) a b
  | .sub => aluBinary (· - ·) a b
  | .mul => aluBinary (· * ·) a b
  | .and => aluBinary (· &&& ·) a b
  | .or => aluBinary (· ||| ·) a b
  | .xor => aluBinary (· ^^^ ·) a b
  | .not => aluNot a
  | .shl => pure ()
  | .shr => pure ()
  | .mod => aluMod a b
  | .cmp => aluCmp a b

/-- The function an operation name selects (41_alu.md R131). -/
def AluFn.ofName (name : String) : Option AluFn :=
  if name = "ADD" then some .add
  else if name = "SUB" then some .sub
  else if name = "MUL" then some .mul
  else if name = "AND" then some .and
  else if name = "OR" then some .or
  else if name = "XOR" then some .xor
  else if name = "NOT" then some .not
  else if name = "SHL" then some .shl
  else if name = "SHR" then some .shr
  else if name = "MOD" then some .mod
  else if name = "CMP" then some .cmp
  else none

/-- The ALU asked by operation name: "An operation name outside this set: fails with `UnsupportedOperation` (fatal)"
(41_alu.md R132). The dispatcher never does it (40_cycle_dispatch.md R118). -/
def aluByName (name : String) (a b : Byte) : Exec Unit :=
  match AluFn.ofName name with
  | some f => aluRequest f a b
  | none => raise (.unsupportedOperation name)

/-- ADD (41_alu.md R150). -/
def execAdd (a b : Byte) (s : State) : Host.Outcome State Fault Refusal :=
  runCycle (do aluRequest .add a b; advance (defaultOpc .ADD)) s

/-- SUB (41_alu.md R151). -/
def execSub (a b : Byte) (s : State) : Host.Outcome State Fault Refusal :=
  runCycle (do aluRequest .sub a b; advance (defaultOpc .SUB)) s

/-- MUL (41_alu.md R152). -/
def execMul (a b : Byte) (s : State) : Host.Outcome State Fault Refusal :=
  runCycle (do aluRequest .mul a b; advance (defaultOpc .MUL)) s

/-- CMP (41_alu.md R153). -/
def execCmp (a b : Byte) (s : State) : Host.Outcome State Fault Refusal :=
  runCycle (do aluRequest .cmp a b; advance (defaultOpc .CMP)) s

end Sys2Proof.Machine
end

