-- ==== Sys2Proof/Machine/Control.lean ====
section
/-! DEFINITION. Control transfer: CALL, RET, JMP, JEQ, JNE (44_control.md). -/

namespace Sys2Proof.Machine

/-- CALL: `MemWrite((SP - 1) mod 256, 1, b)`; `SP <- (SP - 1) mod 256`; `r := MemRead(a, 1)`; `pc <- x[r]`, with the
pointer cell read after the push (44_control.md R180). -/
def execCall (a b : Byte) (s : State) : Host.Outcome State Fault Refusal :=
  runCycle (do
    let slot ← readPushSlot
    memWrite slot.toNat (immediate b)
    writeSp slot
    let r ← pointerIndex a
    let target ← readReg r
    writePc target.toNat
    advance (defaultOpc .CALL)) s

/-- RET: `pc <- MemRead(SP, 1)`; `SP <- (SP + 1) mod 256` (44_control.md R181). -/
def execRet (s : State) : Host.Outcome State Fault Refusal :=
  runCycle (do
    let sp ← readSp
    let target ← memRead sp.toNat
    writePc target.toNat
    let next ← readPopNext
    writeSp next
    advance (defaultOpc .RET)) s

/-- JMP: `pc <- x[a]` (44_control.md R182). -/
def execJmp (a : Byte) (s : State) : Host.Outcome State Fault Refusal :=
  runCycle (do
    let target ← readOperand a
    writePc target.toNat
    advance (defaultOpc .JMP)) s

/-- The two-way branch of JEQ and JNE: to `x[a]` if taken, else to `pc + 2`; the register is read only on the taken
path (44_control.md R183, R184). -/
def branch (taken : Bool) (a : Byte) : Exec Unit :=
  if taken then do
    let target ← readOperand a
    writePc target.toNat
  else do
    let pc ← readPc
    writePc (pc + 2)

/-- JEQ: the branch is taken if `E` (44_control.md R183). -/
def execJeq (a : Byte) (s : State) : Host.Outcome State Fault Refusal :=
  runCycle (do
    let e ← readE
    branch e a
    advance (defaultOpc .JEQ)) s

/-- JNE: the branch is taken if not `E` (44_control.md R184). -/
def execJne (a : Byte) (s : State) : Host.Outcome State Fault Refusal :=
  runCycle (do
    let e ← readE
    branch (!e) a
    advance (defaultOpc .JNE)) s

end Sys2Proof.Machine
end

