-- ==== Sys2Proof/Machine/DataIo.lean ====
section
/-! DEFINITION. Data movement and output: LDI, PRN (42_data_io.md), and the text of an output line. -/

namespace Sys2Proof.Machine

/-- LDI: `x[a] <- b` (42_data_io.md R160). -/
def execLdi (a b : Byte) (s : State) : Host.Outcome State Fault Refusal :=
  runCycle (do writeOperand a (immediate b); advance (defaultOpc .LDI)) s

/-- PRN: `Emit(Prn(x[a]))` (42_data_io.md R161). -/
def execPrn (a : Byte) (s : State) : Host.Outcome State Fault Refusal :=
  runCycle (do
    let v ← readOperand a
    emit (.prn v)
    advance (defaultOpc .PRN)) s

/-- The line the surrounding software shows for an event: for `Prn(v)` "the decimal digits of `v` without sign or
padding" (10_state.md R37; 92_eei_decisions.md D15), less the line end; a diagnostic's text is not given, so there is
none here. -/
def Event.line : Event → Option String
  | .prn v => some (toString v.toNat)
  | .diag _ => none

end Sys2Proof.Machine
end

