-- ==== Sys2Proof/Machine/Stack.lean ====
section
/-! DEFINITION. The stack instructions PUSH and POP (43_stack.md). -/

namespace Sys2Proof.Machine

/-- PUSH: `r := MemRead(a, 1)`; `SP <- (SP - 1) mod 256`; `MemWrite(SP, 1, x[r])`, with `x[r]` read after the
decrement and before the write (43_stack.md R170). -/
def execPush (a : Byte) (s : State) : Host.Outcome State Fault Refusal :=
  runCycle (do
    let r ← pointerIndex a
    let slot ← readPushSlot
    writeSp slot
    let v ← readReg r
    memWrite slot.toNat v
    advance (defaultOpc .PUSH)) s

/-- POP: `r := MemRead(a, 1)`; `x[r] <- MemRead(SP, 1)`; `SP <- (SP + 1) mod 256`, with `SP` read again after the
write of `x[r]` (43_stack.md R171, corner case 3). -/
def execPop (a : Byte) (s : State) : Host.Outcome State Fault Refusal :=
  runCycle (do
    let r ← pointerIndex a
    let sp ← readSp
    let v ← memRead sp.toNat
    writeReg r v
    let next ← readPopNext
    writeSp next
    advance (defaultOpc .POP)) s

end Sys2Proof.Machine
end

