-- ==== Sys2Proof/Machine/System.lean ====
section
/-! DEFINITION. The system instructions HLT and NOP (45_system.md). -/

namespace Sys2Proof.Machine

/-- HLT: `running <- false`, and the automatic advance still happens (45_system.md R200). -/
def execHlt (s : State) : Host.Outcome State Fault Refusal :=
  runCycle (do halt; advance (defaultOpc .HLT)) s

/-- NOP: nothing but the automatic advance (45_system.md R201). -/
def execNop (s : State) : Host.Outcome State Fault Refusal :=
  runCycle (advance (defaultOpc .NOP)) s

end Sys2Proof.Machine
end

