-- ==== Sys2Proof/Machine/Fetch.lean ====
section
/-! DEFINITION. Steps 1 to 4 of the cycle (40_cycle_dispatch.md R110): fetch, operand latches, decode. Also what a
machine does when no cycle is enabled, and placing an instruction where it is fetched. -/

namespace Sys2Proof.Machine

/-- The bytes a cycle reads before the handler runs; none survives the cycle (10_state.md R35). -/
structure Latches where
  op : Byte
  a : Byte
  b : Byte
deriving DecidableEq, Repr

/-- Steps 1 and 3: the opcode byte and, in every cycle whatever the opcode, the two bytes after it; the addresses are
not wrapped (40_cycle_dispatch.md R112, R113). -/
def fetchLatches : Exec Latches := do
  let pc ← readPc
  let op ← memRead pc
  let a ← memRead (pc + 1)
  let b ← memRead (pc + 2)
  return ⟨op, a, b⟩

/-- Step 4: the instruction of the latches, or `raise UnknownInstruction(pc, op)` (40_cycle_dispatch.md R115). -/
def decodeLatches (opc : OpcodeMap) (l : Latches) : Exec Instr := fun s =>
  match decodeWith opc l.op l.a l.b with
  | .ok i => .ok i s
  | .error _ => .error (.unknownInstruction s.pc l.op) s

/-- Steps 1 to 4 of the cycle. -/
def fetchInstr (opc : OpcodeMap) : Exec Instr := do
  let l ← fetchLatches
  decodeLatches opc l

/-- "When a cycle is not enabled the machine does nothing, for ever: no state changes, nothing is emitted"
(40_cycle_dispatch.md R111). Log entry 3. -/
def idle (s : State) : Host.Outcome State Fault Refusal := .next s

/-- The state with the bytes `v0`, `v1`, `v2` in the cells at `pc`, `pc + 1`, `pc + 2`, those of them that exist. -/
def State.storeAtPc (s : State) (v0 v1 v2 : Byte) : State :=
  let put (t : State) (a : Nat) (v : Byte) : State := if a < Config.memSize then t.setByte a v else t
  put (put (put s s.pc.toNat v0) (s.pc.toNat + 1) v1) (s.pc.toNat + 2) v2

end Sys2Proof.Machine
end

