-- ==== Sys2Proof/Machine/Load.lean ====
section
/-! DEFINITION. The load contract between reset and the first cycle (70_reset_and_hazards.md R256;
60_exceptions.md R217). -/

namespace Sys2Proof.Machine

/-- Memory after a failed load: every cell a free value (60_exceptions.md R217; 93_implementation_defined.md U19).
Log entry 6. -/
def failedLoadMemory (image : List Byte) : Memory :=
  Memory.writeList [] 0 ((List.range Config.memSize).map (Config.failedLoadByte image))

/-- The load: cell `i` receives `image[i]`, other cells, registers, `pc`, `FL` and `running` are not touched. An image
longer than 256 bytes raises `ProgramTooLarge` and no cycle ever runs (70_reset_and_hazards.md R256). -/
def load (image : List Byte) (s : State) : State :=
  if image.length ≤ Config.memSize then { s with mem := Memory.writeList s.mem 0 image }
  else { s with mem := failedLoadMemory image }.latch (.programTooLarge image.length)

/-- Reset, then load: the state in which a program's first cycle starts (70_reset_and_hazards.md R250, R256). -/
def boot (image : List Byte) : State := load image State.reset

end Sys2Proof.Machine
end

