-- ==== Sys2Proof/Machine/Step.lean ====
section
/-! DEFINITION. One step: one cycle if one is enabled, else nothing (40_cycle_dispatch.md R110, R111). -/

namespace Sys2Proof.Machine

/-- One step under the opcode map `opc` (00_scope.md R6 has a model take `OPC` as an argument). -/
def stepWith (opc : OpcodeMap) (s : State) : Host.Outcome State Fault Refusal :=
  if s.enabled then
    match (fetchInstr opc).run s with
    | .ok i t => exec i t
    | .error k t => takeFault k t
  else idle s

/-- One step under the default opcode map. -/
def step (s : State) : Host.Outcome State Fault Refusal := stepWith defaultOpc s

/-- `s` with the table word `w` of `nbits` bits stored where the next cycle fetches: at `pc`, `pc + 1`, `pc + 2`
(40_cycle_dispatch.md R110). It stands for the loader placing a program (log entry 4). -/
def State.withFetchWord (s : State) (nbits w : Nat) : State :=
  s.storeAtPc (tableByte nbits w 0) (tableByte nbits w 1) (tableByte nbits w 2)

end Sys2Proof.Machine
end

