-- ==== Sys2Proof/Safety.lean ====
section
/-! DEFINITION. What counts as the end of a run, and the invariant of the core's state. -/

namespace Sys2Proof.Machine

/-- A final state: `running = false` and `fault = none` (70_reset_and_hazards.md R262). -/
def State.isFinal (s : State) : Bool := !s.running && s.fault.isNone

/-- A faulted state: stopped but not final (70_reset_and_hazards.md R262). -/
def State.isFaulted (s : State) : Bool := s.fault.isSome

/-- The invariant: memory is in canonical form within the address space (20_memory.md R50), and bits 7:1 of `FL` read as
zero (10_state.md R28). -/
structure State.Inv (s : State) : Prop where
  mem : s.mem.wf = true
  flags : s.fl &&& 0xFE#8 = 0#8

/-- `k` steps under the opcode map `opc`: the state they lead to from `s`, if every one of them answers a next state. -/
def stepsWith (opc : OpcodeMap) : Nat → State → Option State
  | 0, s => some s
  | k + 1, s =>
    match stepWith opc s with
    | .next t => stepsWith opc k t
    | .fault _ => none
    | .refused _ => none

/-- The register index that PUSH, POP or CALL takes from its pointer cell in state `s`, at the moment the handler reads
it: CALL reads it after it has pushed (44_control.md R180). `none` for every other instruction. -/
def State.pointerIndexOf (s : State) : Instr → Option Nat
  | .push a | .pop a => some (s.pointed a)
  | .call a b => some ((s.setByte s.pushSlot.toNat b).pointed a)
  | .nop | .hlt | .ret | .prn _ | .jmp _ | .jeq _ | .jne _ => none
  | .ldi _ _ | .add _ _ | .sub _ _ | .mul _ _ | .cmp _ _ => none

end Sys2Proof.Machine
end

