-- ==== Sys2Proof/Certificates/Slice0/Obligations.lean ====
section
/-! DEFINITION. The statements for the provers, file by file of the spec. A statement about `stepWith opc` holds for the
machine of every opcode map `opc` (the spec's OPEN parameter `OPC`); `step` is `stepWith defaultOpc`. Where a statement
speaks of the fault latch it rests on 92_eei_decisions.md D8 (log entry 2). -/

open Sys2Proof Sys2Proof.Machine

/-! ### Encoding and decoding (30_encoding.md) -/

/-- Decode and encode agree: under every valid opcode map the bytes of an instruction, whatever follows them in memory,
decode to that instruction with every operand (30_encoding.md sections 1 to 3, R80, R84 to R86, R90). -/
def Obligations.EncodedInstructionDecodesBack : Prop :=
  ∀ (opc : OpcodeMap), opc.Valid → ∀ (i : Instr) (rest : List Byte),
    3 ≤ (encodeWith opc i ++ rest).length → decodeBytesWith opc (encodeWith opc i ++ rest) = .ok i

/-- The other direction: what decodes to `i` begins with the bytes of `i` (30_encoding.md sections 1 to 3). -/
def Obligations.DecodedBytesAreTheEncoding : Prop :=
  ∀ (opc : OpcodeMap) (op a b : Byte) (i : Instr),
    decodeWith opc op a b = .ok i → encodeWith opc i <+: [op, a, b]

/-- The whole opcode byte is looked up: a byte of the map gives its own mnemonic, any other byte is rejected by name
(30_encoding.md section 3, R86; section 4, R87). -/
def Obligations.LookupMatchesTheWholeByte : Prop :=
  ∀ (opc : OpcodeMap), opc.Valid → ∀ op a b : Byte,
    (∀ m : Mnemonic, opc m = op → decodeWith opc op a b = .ok (m.withLatches a b)) ∧
    ((∀ m : Mnemonic, opc m ≠ op) → decodeWith opc op a b = .error (.unknownInstruction op))

/-- "All 241 byte values other than the 15 of `OPC` are illegal when fetched as an opcode" (30_encoding.md section 4,
R87): under every valid map exactly 241 bytes are rejected. -/
def Obligations.IllegalOpcodesAreTwoHundredFortyOne : Prop :=
  ∀ (opc : OpcodeMap), opc.Valid →
    ((List.range 256).filter (fun n => (lookup opc (BitVec.ofNat 8 n)).isNone)).length = 241

/-- A handler sees only the latches its signature names: `b` cannot influence a one-operand instruction, nor `a` or `b`
one without operands (40_cycle_dispatch.md section 2, R117; 30_encoding.md section 3, R84). -/
def Obligations.UnusedLatchesAreIgnored : Prop :=
  ∀ (opc : OpcodeMap) (op a b a' b' : Byte),
    ((op = opc .NOP ∨ op = opc .HLT ∨ op = opc .RET) → opc.Valid →
      decodeWith opc op a b = decodeWith opc op a' b') ∧
    ((op = opc .PUSH ∨ op = opc .POP ∨ op = opc .PRN ∨ op = opc .JMP ∨ op = opc .JEQ ∨ op = opc .JNE) → opc.Valid →
      decodeWith opc op a b = decodeWith opc op a b')

/-- Words written out from the spec's table and examples decode to the instructions they stand for (30_encoding.md
section 3, R85; 95_test_vectors.md S1, S2, P3, P4, P8). The byte values are the default `OPC` (log entry 1). -/
def Obligations.TableWordsDecode : Prop :=
  decode 0b10000010#8 0 8 = .ok (.ldi 0 8) ∧
  decode 0b10100010#8 0 1 = .ok (.mul 0 1) ∧
  decode 0b10100111#8 0 2 = .ok (.cmp 0 2) ∧
  decode 0b01000111#8 0 1 = .ok (.prn 0) ∧
  decode 0b01000101#8 1 0x46 = .ok (.push 1) ∧
  decode 0b01000110#8 8 0x47 = .ok (.pop 8) ∧
  decode 0b01010000#8 1 9 = .ok (.call 1 9) ∧
  decode 0b00010001#8 0 0 = .ok .ret ∧
  decode 0b01010101#8 4 0x54 = .ok (.jeq 4) ∧
  decode 0b00000001#8 0 0 = .ok .hlt ∧
  decode 0xA8#8 0 1 = .error (.unknownInstruction 0xA8)

/-- The default opcode map meets the two conditions of 30_encoding.md R85 (section 3). Its values are the spec's from
general knowledge (log entry 1). -/
def Obligations.DefaultOpcodeMapIsValid : Prop := defaultOpc.Valid

/-- "No behaviour of the core depends on the field" where R84 calls it free: the automatic advance that `exec` makes with
the default map's byte is the advance of every valid map's byte (30_encoding.md section 3, R84, R85; section 5, R90). -/
def Obligations.AdvanceIsTheSameForEveryValidMap : Prop :=
  ∀ (opc : OpcodeMap), opc.Valid → ∀ (m : Mnemonic) (s : State),
    (advance (opc m)).run s = (advance (defaultOpc m)).run s

/-- In memory the first operand comes first, and the first operand of a two-register ALU instruction is both the left
source and the destination (30_encoding.md R102). -/
def Obligations.FirstOperandIsLeftSourceAndDestination : Prop :=
  ∀ (opc : OpcodeMap) (a b : Byte) (s : State),
    encodeWith opc (.ldi a b) = [opc .LDI, a, b] ∧
    encodeWith opc (.add a b) = [opc .ADD, a, b] ∧
    encodeWith opc (.sub a b) = [opc .SUB, a, b] ∧
    encodeWith opc (.mul a b) = [opc .MUL, a, b] ∧
    encodeWith opc (.cmp a b) = [opc .CMP, a, b] ∧
    encodeWith opc (.call a b) = [opc .CALL, a, b] ∧
    ∀ (ha : a.toNat < 8) (hb : b.toNat < 8), s.pc.toNat + 3 < 256 →
      (∃ t, exec (.add a b) s = .next t ∧ t.regs = s.regs.set a.toNat (s.regs[a.toNat] + s.regs[b.toNat])) ∧
      (∃ t, exec (.sub a b) s = .next t ∧ t.regs = s.regs.set a.toNat (s.regs[a.toNat] - s.regs[b.toNat])) ∧
      (∃ t, exec (.mul a b) s = .next t ∧ t.regs = s.regs.set a.toNat (s.regs[a.toNat] * s.regs[b.toNat]))

/-! ### The cycle (40_cycle_dispatch.md) -/

/-- A step runs the decoded instruction: if a cycle is enabled and the three bytes at `pc` decode to `i`, the step is
`exec i` (the automatic advance is inside `exec`), under every opcode map; `step` is the default map's
(40_cycle_dispatch.md section 1, R110). For a map that is not valid, about which the spec says nothing, this is the
model's choice: `exec` advances by the default map's control bits, not by those of the byte fetched (log entry 15). -/
def Obligations.StepRunsTheDecodedInstruction : Prop :=
  ∀ (opc : OpcodeMap) (s : State) (i : Instr),
    s.running = true → s.fault = none → s.pc.toNat + 2 < 256 →
    decodeBytesWith opc [s.byteAt s.pc.toNat, s.byteAt (s.pc.toNat + 1), s.byteAt (s.pc.toNat + 2)] = .ok i →
    stepWith opc s = exec i s ∧ step s = stepWith defaultOpc s

/-- A stopped machine does nothing, for ever (40_cycle_dispatch.md R111). -/
def Obligations.StoppedMachineNeverMoves : Prop :=
  ∀ (opc : OpcodeMap) (s : State), s.running = false ∨ s.fault ≠ none →
    stepWith opc s = .next s ∧ ∀ k, stepsWith opc k s = some s

/-- From address 254 or 255 the operand read faults before decode, whatever the bytes, and nothing but the latch changes
(40_cycle_dispatch.md section 1, R113; 60_exceptions.md section 2, R218). The fault instead of a wrap is
92_eei_decisions.md D6 and D7 (log entries 2, 9). -/
def Obligations.NothingExecutesFromTheTopTwoCells : Prop :=
  ∀ (opc : OpcodeMap) (s : State), s.running = true → s.fault = none → 254 ≤ s.pc.toNat →
    stepWith opc s = .next { s with fault := some (.outOfRange .mem 256) }

/-- A byte outside the map raises `UnknownInstruction` with its address and value; nothing else changes and the machine
has stopped (60_exceptions.md section 1, R211; 40_cycle_dispatch.md section 1, R115). Log entry 2. -/
def Obligations.UnknownOpcodeStopsTheMachine : Prop :=
  ∀ (opc : OpcodeMap) (s : State), s.running = true → s.fault = none → s.pc.toNat + 2 < 256 →
    (∀ m : Mnemonic, opc m ≠ s.byteAt s.pc.toNat) →
    stepWith opc s = .next { s with fault := some (.unknownInstruction s.pc (s.byteAt s.pc.toNat)) } ∧
    ∀ k, stepsWith opc (k + 1) s =
      some { s with fault := some (.unknownInstruction s.pc (s.byteAt s.pc.toNat)) }

/-- The machine is never stuck: every instruction and every step answers a next state (70_reset_and_hazards.md
section 3, R262, an inference the spec marks as derived; log entries 2, 3). -/
def Obligations.EveryStepAnswersANextState : Prop :=
  (∀ (i : Instr) (s : State), ∃ t, exec i s = .next t) ∧
  ∀ (opc : OpcodeMap) (s : State), ∃ t, stepWith opc s = .next t

/-- Where `pc` stands after a cycle, for each instruction (10_state.md section 3, R26; the HLT row rests on
92_eei_decisions.md D10, the error rows on D6 and D8, the fall-through of JEQ and JNE on D11; log entries 2, 9, 12,
13). -/
def Obligations.PcAfterEachCycle : Prop :=
  ∀ (opc : OpcodeMap) (s t : State) (i : Instr), opc.Valid →
    s.running = true → s.fault = none → s.pc.toNat + 2 < 256 →
    decodeWith opc (s.byteAt s.pc.toNat) (s.byteAt (s.pc.toNat + 1)) (s.byteAt (s.pc.toNat + 2)) = .ok i →
    stepWith opc s = .next t →
    (t.fault ≠ none → t.pc = s.pc) ∧
    (t.fault = none → setsPc (s.byteAt s.pc.toNat) = false →
      t.pc.toNat = s.pc.toNat + operandCount (s.byteAt s.pc.toNat) + 1) ∧
    (t.fault = none →
      match i with
      | .nop | .hlt => setsPc (opc i.mnemonic) = false ∧ t.pc.toNat = s.pc.toNat + 1
      | .prn _ | .push _ | .pop _ => setsPc (opc i.mnemonic) = false ∧ t.pc.toNat = s.pc.toNat + 2
      | .ldi _ _ | .add _ _ | .sub _ _ | .mul _ _ | .cmp _ _ =>
        setsPc (opc i.mnemonic) = false ∧ t.pc.toNat = s.pc.toNat + 3
      | .jmp a => setsPc (opc i.mnemonic) = true ∧ ∃ h : a.toNat < 8, t.pc = s.regs[a.toNat]
      | .jeq a => setsPc (opc i.mnemonic) = true ∧
          if s.e = true then ∃ h : a.toNat < 8, t.pc = s.regs[a.toNat] else t.pc.toNat = s.pc.toNat + 2
      | .jne a => setsPc (opc i.mnemonic) = true ∧
          if s.e = false then ∃ h : a.toNat < 8, t.pc = s.regs[a.toNat] else t.pc.toNat = s.pc.toNat + 2
      | .call a _ => setsPc (opc i.mnemonic) = true ∧
          ∃ h : (t.byteAt a.toNat).toNat < 8, t.pc = t.regs[(t.byteAt a.toNat).toNat]
      | .ret => setsPc (opc i.mnemonic) = true ∧ t.pc = s.byteAt s.regs[7].toNat)

/-! ### Reset and the load (10_state.md, 70_reset_and_hazards.md) -/

/-- What reset leaves in every element of state (10_state.md section 8, R38; 70_reset_and_hazards.md section 1, R250).
That `fault` and `out` start empty is 92_eei_decisions.md D8 and D15 (log entries 2, 17). -/
def Obligations.ResetLeavesEverythingZero : Prop :=
  (∀ i : Fin 8, State.reset.reg i = 0) ∧ (∀ a : Nat, State.reset.byteAt a = 0) ∧
  State.reset.pc = 0 ∧ State.reset.fl = 0 ∧ State.reset.e = false ∧ State.reset.running = true ∧
  State.reset.fault = none ∧ State.reset.out = []

/-- The stack pointer is 0 at reset; PUSH and CALL take it down by one and store where it then points, so from 0 they
take it to 255 and store there, at the top of memory (10_state.md R39). -/
def Obligations.FirstPushAfterResetGoesToTheTop : Prop :=
  State.reset.sp = 0 ∧
  ∀ (s : State),
    (s.regs[7] = 0 → (s.regs[7] - 1).toNat = 255) ∧
    (0 < s.regs[7].toNat → (s.regs[7] - 1).toNat = s.regs[7].toNat - 1) ∧
    (∀ (a : Byte) (t : State), (s.byteAt a.toNat).toNat < 8 → exec (.push a) s = .next t →
      t.regs[7] = s.regs[7] - 1 ∧ ∃ v, t.mem = s.mem.write (s.regs[7] - 1).toNat v) ∧
    (∀ (a b : Byte) (t : State), exec (.call a b) s = .next t →
      t.regs[7] = s.regs[7] - 1 ∧ t.mem = s.mem.write (s.regs[7] - 1).toNat b)

/-- The load contract (70_reset_and_hazards.md R256). -/
def Obligations.LoadPlacesTheImageFromZero : Prop :=
  ∀ (image : List Byte),
    (image.length ≤ 256 →
      (∀ i, (h : i < image.length) → (boot image).byteAt i = image[i]) ∧
      (∀ i, image.length ≤ i → (boot image).byteAt i = 0) ∧
      boot image = { State.reset with mem := (boot image).mem }) ∧
    (256 < image.length →
      boot image =
        { State.reset with mem := (boot image).mem, fault := some (.programTooLarge image.length) } ∧
      ∀ (opc : OpcodeMap) k, stepsWith opc k (boot image) = some (boot image))

/-- The state after reset meets the invariant (20_memory.md section 1; 10_state.md section 4). The canonical form is the
model's (log entry 5); which bits of `FL` are the unused ones is 92_eei_decisions.md D3 (log entry 7). -/
def Obligations.ResetMeetsTheInvariant : Prop := State.reset.Inv

/-- Every load keeps the invariant, a failed one too, whatever memory then holds (70_reset_and_hazards.md section 2;
the free contents are log entry 6, the canonical form is log entry 5). Which bits of `FL` are the unused ones is
92_eei_decisions.md D3 (log entry 7). -/
def Obligations.LoadKeepsTheInvariant : Prop :=
  ∀ (image : List Byte) (s : State), s.Inv → (load image s).Inv

/-- Every step of every opcode map keeps the invariant: memory stays canonical within its 256 cells and bits 7:1 of `FL`
stay zero (20_memory.md section 1, R50; 10_state.md section 4, R28). That those bits stay zero is an inference R28 marks as
derived, and rests on `E` being bit 0, which is 92_eei_decisions.md D3 (log entry 7); the canonical form is the model's
(log entry 5). -/
def Obligations.EveryStepKeepsTheInvariant : Prop :=
  ∀ (opc : OpcodeMap) (s t : State), s.Inv → stepWith opc s = .next t → t.Inv

/-- The instruction stored where the next cycle fetches is the one it runs (the model's interface, log entry 4; rests on
40_cycle_dispatch.md section 1). -/
def Obligations.StoredWordIsTheOneThatRuns : Prop :=
  ∀ (s : State) (nbits w : Nat) (i : Instr),
    s.mem.wf = true → s.running = true → s.fault = none → s.pc.toNat + 2 < 256 →
    decodeTableWord nbits w = some i →
    step (s.withFetchWord nbits w) = exec i (s.withFetchWord nbits w)

/-! ### The flag, the running flag, the output stream, memory: whole-machine rules -/

/-- Only CMP mutates `FL`, on every execution; only JEQ and JNE read it; `E` keeps its value until the next CMP
(10_state.md section 4, R29). That CMP compares register contents is 92_eei_decisions.md D4 (41_alu.md part 1, R147; log
entry 8), that `E` is bit 0 and the kept bits are 7:1 is D3 (R28; log entry 7). -/
def Obligations.OnlyCmpWritesAndOnlyBranchesReadTheFlags : Prop :=
  (∀ (i : Instr) (s t : State), (∀ a b, i ≠ .cmp a b) → exec i s = .next t → t.fl = s.fl) ∧
  (∀ (a b : Byte) (s t : State) (ha : a.toNat < 8) (hb : b.toNat < 8), exec (.cmp a b) s = .next t →
    t.e = decide (s.regs[a.toNat] = s.regs[b.toNat]) ∧
    ∀ k, 0 < k → k < 8 → t.fl.getLsbD k = s.fl.getLsbD k) ∧
  (∀ (i : Instr) (s t u : State) (f : Byte), (∀ a, i ≠ .jeq a) → (∀ a, i ≠ .jne a) →
    exec i s = .next t → exec i { s with fl := f } = .next u → u = { t with fl := u.fl }) ∧
  (∀ (opc : OpcodeMap) (s t : State) (k : Nat), opc.Valid →
    (∀ j u, j < k → stepsWith opc j s = some u → u.byteAt u.pc.toNat ≠ opc .CMP) →
    stepsWith opc k s = some t → t.fl = s.fl)

/-- The running flag is true from machine start, made false only by HLT and by MOD on a zero divisor, never made true
again, and left alone by a fatal error (10_state.md R31). -/
def Obligations.OnlyTheHaltHandlerClearsRunning : Prop :=
  State.reset.running = true ∧
  (∀ (s t : State), exec .hlt s = .next t → t.running = false) ∧
  (∀ (a b : Byte) (s : State) (_ : a.toNat < 8) (hb : b.toNat < 8), s.regs[b.toNat] = 0 →
    ∃ t, (aluRequest .mod a b).run s = .ok () t ∧ t.running = false) ∧
  (∀ (opc : OpcodeMap) (s t : State), opc.Valid → stepWith opc s = .next t →
    (s.running = false → t.running = false) ∧
    (s.running = true → t.running = false → s.byteAt s.pc.toNat = opc .HLT ∧ t.fault = none) ∧
    (t.fault ≠ s.fault → t.running = s.running))

/-- The output stream is only appended to, by PRN, one event a cycle, with the value of the register named
(10_state.md section 7, R37; 42_data_io.md R161, PRN). -/
def Obligations.OutputIsAppendedOnlyByPrn : Prop :=
  ∀ (opc : OpcodeMap) (s t : State), opc.Valid → stepWith opc s = .next t →
    t.out = s.out ∨
    (s.byteAt s.pc.toNat = opc .PRN ∧
      ∃ h : (s.byteAt (s.pc.toNat + 1)).toNat < 8,
        t.out = s.out ++ [.prn s.regs[(s.byteAt (s.pc.toNat + 1)).toNat]])

/-- Only PUSH and CALL write memory, and only the cell below the stack pointer (20_memory.md section 1, R51). -/
def Obligations.OnlyPushAndCallWriteMemory : Prop :=
  ∀ (opc : OpcodeMap) (s t : State) (x : Nat), opc.Valid → stepWith opc s = .next t →
    t.byteAt x ≠ s.byteAt x →
    (s.byteAt s.pc.toNat = opc .PUSH ∨ s.byteAt s.pc.toNat = opc .CALL) ∧ x = s.pushSlot.toNat

/-- Every fatal error a step can latch, where it comes from and what it leaves: the latch is written once, `pc`, `FL`,
`out` and `running` keep their values, and the record is one of those of 60_exceptions.md R213 with the values its table
allows (60_exceptions.md sections 1 and 2; 92_eei_decisions.md D6, D8, D9; log entries 2, 9, 11). `UnsupportedOperation`
and `ProgramTooLarge` are never among them. For a map that is not valid, that an advance fails only at 253 and with the
value 256 is the model's choice (log entry 15). -/
def Obligations.EveryLatchedFaultIsAccountedFor : Prop :=
  ∀ (opc : OpcodeMap) (s t : State), stepWith opc s = .next t → t.fault ≠ s.fault →
    s.fault = none ∧ s.running = true ∧ t.running = true ∧ t.pc = s.pc ∧
    ((∀ a b, decodeWith opc (s.byteAt s.pc.toNat) (s.byteAt (s.pc.toNat + 1)) (s.byteAt (s.pc.toNat + 2)) ≠
      .ok (.cmp a b)) → t.fl = s.fl) ∧
    t.out = s.out ∧
    ((t.fault = some (.outOfRange .mem 256) ∧ 254 ≤ s.pc.toNat) ∨
     (t.fault = some (.unknownInstruction s.pc (s.byteAt s.pc.toNat)) ∧ s.pc.toNat < 254) ∨
     (∃ r, t.fault = some (.outOfRange .reg r) ∧ 8 ≤ r ∧ r < 256 ∧ s.pc.toNat < 254) ∨
     (t.fault = some (.outOfRange .pc 256) ∧ s.pc.toNat = 253))

/-! ### The ALU block (41_alu.md, part 1) -/

/-- ALU functions ADD, SUB, MUL: the result modulo 256 goes to `x[a]`, and nothing else is written (41_alu.md R135,
R136, R137). -/
def Obligations.AluArithmeticWrapsModulo256 : Prop :=
  ∀ (a b : Byte) (s : State) (ha : a.toNat < 8) (hb : b.toNat < 8),
    (aluRequest .add a b).run s = .ok () { s with
      regs := s.regs.set a.toNat (BitVec.ofNat 8 ((s.regs[a.toNat].toNat + s.regs[b.toNat].toNat) % 256)) } ∧
    (aluRequest .sub a b).run s = .ok () { s with
      regs := s.regs.set a.toNat
        (BitVec.ofNat 8 (if s.regs[a.toNat].toNat < s.regs[b.toNat].toNat
          then s.regs[a.toNat].toNat + 256 - s.regs[b.toNat].toNat
          else s.regs[a.toNat].toNat - s.regs[b.toNat].toNat)) } ∧
    (aluRequest .mul a b).run s = .ok () { s with
      regs := s.regs.set a.toNat (BitVec.ofNat 8 ((s.regs[a.toNat].toNat * s.regs[b.toNat].toNat) % 256)) }

/-- ALU functions AND, OR, XOR bit by bit, and NOT as `255 - x[a]` whatever `b` is; each writes `x[a]` only
(41_alu.md part 1, R138 to R141). -/
def Obligations.AluBitwiseFunctions : Prop :=
  ∀ (a b : Byte) (s : State) (ha : a.toNat < 8),
    (∃ v : Byte, (aluRequest .not a b).run s = .ok () { s with regs := s.regs.set a.toNat v } ∧
      v.toNat = 255 - s.regs[a.toNat].toNat) ∧
    ∀ (hb : b.toNat < 8),
      (∃ v : Byte, (aluRequest .and a b).run s = .ok () { s with regs := s.regs.set a.toNat v } ∧
        ∀ k, k < 8 → v.getLsbD k = (s.regs[a.toNat].getLsbD k && s.regs[b.toNat].getLsbD k)) ∧
      (∃ v : Byte, (aluRequest .or a b).run s = .ok () { s with regs := s.regs.set a.toNat v } ∧
        ∀ k, k < 8 → v.getLsbD k = (s.regs[a.toNat].getLsbD k || s.regs[b.toNat].getLsbD k)) ∧
      (∃ v : Byte, (aluRequest .xor a b).run s = .ok () { s with regs := s.regs.set a.toNat v } ∧
        ∀ k, k < 8 → v.getLsbD k = (s.regs[a.toNat].getLsbD k ^^ s.regs[b.toNat].getLsbD k))

/-- ALU function MOD with a non-zero divisor: the unsigned remainder goes to `x[a]` (41_alu.md part 1, R145). -/
def Obligations.AluRemainder : Prop :=
  ∀ (a b : Byte) (s : State) (ha : a.toNat < 8) (hb : b.toNat < 8), s.regs[b.toNat] ≠ 0 →
    ∃ v : Byte, (aluRequest .mod a b).run s = .ok () { s with regs := s.regs.set a.toNat v } ∧
      v.toNat < s.regs[b.toNat].toNat ∧
      ∃ q, s.regs[a.toNat].toNat = q * s.regs[b.toNat].toNat + v.toNat

/-- MOD with a zero divisor emits a diagnostic and halts gracefully, with no fatal error; no step ever emits a
diagnostic (60_exceptions.md R215). -/
def Obligations.ModByZeroHaltsGracefully : Prop :=
  (∀ (a b : Byte) (s : State) (_ : a.toNat < 8) (hb : b.toNat < 8), s.regs[b.toNat] = 0 →
    (aluRequest .mod a b).run s =
      .ok () { s with out := s.out ++ [.diag .divisionByZero], running := false } ∧
    (s.fault = none →
      { s with out := s.out ++ [.diag .divisionByZero], running := false : State }.isFinal = true)) ∧
  ∀ (opc : OpcodeMap) (s t : State), stepWith opc s = .next t →
    t.out = s.out ∨ ∃ v, t.out = s.out ++ [.prn v]

/-- A bad register index raises `OutOfRange(reg, ..)` before anything is written, `a` before `b`; NOT does not check `b`,
and SHL and SHR check nothing and change nothing (41_alu.md part 1, R130, R142, R143; 92_eei_decisions.md D9, D13, log
entries 11, 14). -/
def Obligations.AluIndexErrorsChangeNothing : Prop :=
  ∀ (a b : Byte) (s : State),
    (∀ f : AluFn, f ≠ .shl → f ≠ .shr →
      (8 ≤ a.toNat → (aluRequest f a b).run s = .error (.outOfRange .reg a.toNat) s) ∧
      (a.toNat < 8 → 8 ≤ b.toNat → f ≠ .not →
        (aluRequest f a b).run s = .error (.outOfRange .reg b.toNat) s)) ∧
    (aluRequest .shl a b).run s = .ok () s ∧ (aluRequest .shr a b).run s = .ok () s

/-- Both inputs are read before the result is written, so both operands may name one register (41_alu.md part 1, R149,
an inference the spec marks as derived). -/
def Obligations.SameRegisterAsBothOperands : Prop :=
  ∀ (a : Byte) (s : State) (ha : a.toNat < 8),
    (aluRequest .add a a).run s =
      .ok () { s with regs := s.regs.set a.toNat (BitVec.ofNat 8 (2 * s.regs[a.toNat].toNat % 256)) } ∧
    (aluRequest .sub a a).run s = .ok () { s with regs := s.regs.set a.toNat 0 } ∧
    (aluRequest .xor a a).run s = .ok () { s with regs := s.regs.set a.toNat 0 } ∧
    (aluRequest .and a a).run s = .ok () s ∧
    (aluRequest .or a a).run s = .ok () s ∧
    (s.regs[a.toNat] ≠ 0 → (aluRequest .mod a a).run s = .ok () { s with regs := s.regs.set a.toNat 0 }) ∧
    ∃ t, (aluRequest .cmp a a).run s = .ok () t ∧ t.e = true

/-- An operation name outside the closed set of eleven raises `UnsupportedOperation` and changes nothing; the eleven
names select their functions (41_alu.md part 1, R131, R132; 60_exceptions.md section 1, R212). -/
def Obligations.UnknownOperationNameRaises : Prop :=
  ∀ (name : String) (a b : Byte) (s : State),
    (name ∉ ["ADD", "SUB", "MUL", "AND", "OR", "XOR", "NOT", "SHL", "SHR", "MOD", "CMP"] →
      (aluByName name a b).run s = .error (.unsupportedOperation name) s) ∧
    (aluByName "ADD" a b = aluRequest .add a b ∧ aluByName "SUB" a b = aluRequest .sub a b ∧
     aluByName "MUL" a b = aluRequest .mul a b ∧ aluByName "AND" a b = aluRequest .and a b ∧
     aluByName "OR" a b = aluRequest .or a b ∧ aluByName "XOR" a b = aluRequest .xor a b ∧
     aluByName "NOT" a b = aluRequest .not a b ∧ aluByName "SHL" a b = aluRequest .shl a b ∧
     aluByName "SHR" a b = aluRequest .shr a b ∧ aluByName "MOD" a b = aluRequest .mod a b ∧
     aluByName "CMP" a b = aluRequest .cmp a b)

/-! ### Results of the instructions (41_alu.md to 45_system.md) -/

/-- ADD, SUB and MUL: the whole next state (41_alu.md part 2, R150, R151, R152). -/
def Obligations.ArithmeticInstructionResult : Prop :=
  ∀ (a b : Byte) (s : State) (ha : a.toNat < 8) (hb : b.toNat < 8), s.pc.toNat + 3 < 256 →
    exec (.add a b) s = .next { s with
      regs := s.regs.set a.toNat (BitVec.ofNat 8 ((s.regs[a.toNat].toNat + s.regs[b.toNat].toNat) % 256)),
      pc := BitVec.ofNat 8 (s.pc.toNat + 3) } ∧
    exec (.sub a b) s = .next { s with
      regs := s.regs.set a.toNat (BitVec.ofNat 8 ((256 + s.regs[a.toNat].toNat - s.regs[b.toNat].toNat) % 256)),
      pc := BitVec.ofNat 8 (s.pc.toNat + 3) } ∧
    exec (.mul a b) s = .next { s with
      regs := s.regs.set a.toNat (BitVec.ofNat 8 ((s.regs[a.toNat].toNat * s.regs[b.toNat].toNat) % 256)),
      pc := BitVec.ofNat 8 (s.pc.toNat + 3) }

/-- CMP: the whole next state; only bit 0 of `FL` is written (41_alu.md part 2, R153; the comparison of register
contents is 92_eei_decisions.md D4, log entry 8; the bit is D3, log entry 7). -/
def Obligations.CompareInstructionResult : Prop :=
  ∀ (a b : Byte) (s : State) (ha : a.toNat < 8) (hb : b.toNat < 8), s.pc.toNat + 3 < 256 →
    ∃ f : Byte, exec (.cmp a b) s = .next { s with fl := f, pc := BitVec.ofNat 8 (s.pc.toNat + 3) } ∧
      f.getLsbD 0 = decide (s.regs[a.toNat].toNat = s.regs[b.toNat].toNat) ∧
      ∀ k, 0 < k → k < 8 → f.getLsbD k = s.fl.getLsbD k

/-- LDI: the whole next state, for every immediate (42_data_io.md, LDI, R160). -/
def Obligations.LoadImmediateResult : Prop :=
  ∀ (a b : Byte) (s : State) (ha : a.toNat < 8), s.pc.toNat + 3 < 256 →
    exec (.ldi a b) s = .next { s with regs := s.regs.set a.toNat b, pc := BitVec.ofNat 8 (s.pc.toNat + 3) }

/-- PRN: the whole next state, one event appended (42_data_io.md, PRN, R161). -/
def Obligations.PrintResult : Prop :=
  ∀ (a : Byte) (s : State) (ha : a.toNat < 8), s.pc.toNat + 2 < 256 →
    exec (.prn a) s = .next { s with
      out := s.out ++ [.prn s.regs[a.toNat]], pc := BitVec.ofNat 8 (s.pc.toNat + 2) }

/-- PUSH: the whole next state. The index comes from the pointer cell as it is before the push; pushing `x[7]` pushes
the decremented value (43_stack.md, PUSH, R170). -/
def Obligations.PushResult : Prop :=
  ∀ (a : Byte) (s : State) (r : Nat) (hr : r < 8), r = (s.byteAt a.toNat).toNat → s.pc.toNat + 2 < 256 →
    exec (.push a) s = .next { s with
      regs := s.regs.set 7 (s.regs[7] - 1),
      mem := s.mem.write (s.regs[7] - 1).toNat (if r = 7 then s.regs[7] - 1 else s.regs[r]),
      pc := BitVec.ofNat 8 (s.pc.toNat + 2) }

/-- POP: the whole next state. Popping into `x[7]` leaves the popped value plus one (43_stack.md, POP, R171). -/
def Obligations.PopResult : Prop :=
  ∀ (a : Byte) (s : State) (r : Nat) (hr : r < 8), r = (s.byteAt a.toNat).toNat → s.pc.toNat + 2 < 256 →
    exec (.pop a) s = .next { s with
      regs := if r = 7 then s.regs.set 7 (s.byteAt s.regs[7].toNat + 1)
        else (s.regs.set r (s.byteAt s.regs[7].toNat)).set 7 (s.regs[7] + 1),
      pc := BitVec.ofNat 8 (s.pc.toNat + 2) }

/-- CALL: the whole next state. The literal byte `b` is pushed, the pointer cell is read after the push, and a target in
`x[7]` is the decremented stack pointer (44_control.md, CALL, R180; 92_eei_decisions.md D12, log entry 13). -/
def Obligations.CallResult : Prop :=
  ∀ (a b : Byte) (s : State) (m : Memory) (r : Nat) (hr : r < 8),
    m = s.mem.write (s.regs[7] - 1).toNat b → r = (m.read a.toNat).toNat →
    exec (.call a b) s = .next { s with
      regs := s.regs.set 7 (s.regs[7] - 1),
      mem := m,
      pc := if r = 7 then s.regs[7] - 1 else s.regs[r] }

/-- RET: its encoding and its whole next state, in every state (44_control.md R181). -/
def Obligations.ReturnResult : Prop :=
  (∀ (opc : OpcodeMap), opc.Valid → encodeWith opc .ret = [opc .RET] ∧
    ∀ a b : Byte, decodeWith opc (opc .RET) a b = .ok .ret) ∧
  defaultOpc .RET = 0b00010001#8 ∧
  ∀ (s : State), exec .ret s = .next { s with
    regs := s.regs.set 7 (s.regs[7] + 1),
    pc := s.byteAt s.regs[7].toNat }

/-- JMP: the whole next state, wherever the target points (44_control.md, JMP, R182). -/
def Obligations.JumpResult : Prop :=
  ∀ (a : Byte) (s : State) (ha : a.toNat < 8), exec (.jmp a) s = .next { s with pc := s.regs[a.toNat] }

/-- JEQ and JNE: the whole next state on the taken and on the fall-through path; on the fall-through path `a` may be any
byte (44_control.md, JEQ and JNE, R183, R184; 92_eei_decisions.md D11, D17, log entries 13, 19). -/
def Obligations.BranchResult : Prop :=
  ∀ (a : Byte) (s : State),
    (∀ (ha : a.toNat < 8), s.e = true → exec (.jeq a) s = .next { s with pc := s.regs[a.toNat] }) ∧
    (s.e = false → s.pc.toNat + 2 < 256 →
      exec (.jeq a) s = .next { s with pc := BitVec.ofNat 8 (s.pc.toNat + 2) }) ∧
    (∀ (ha : a.toNat < 8), s.e = false → exec (.jne a) s = .next { s with pc := s.regs[a.toNat] }) ∧
    (s.e = true → s.pc.toNat + 2 < 256 →
      exec (.jne a) s = .next { s with pc := BitVec.ofNat 8 (s.pc.toNat + 2) })

/-- HLT: the whole next state; from an unfaulted state it is final (45_system.md, HLT, R200; 92_eei_decisions.md D10,
log entry 12). -/
def Obligations.HaltResult : Prop :=
  ∀ (s : State), s.pc.toNat + 1 < 256 →
    exec .hlt s = .next { s with running := false, pc := BitVec.ofNat 8 (s.pc.toNat + 1) } ∧
    (s.fault = none →
      { s with running := false, pc := BitVec.ofNat 8 (s.pc.toNat + 1) : State }.isFinal = true)

/-- NOP: the whole next state (45_system.md, NOP, R201). -/
def Obligations.NopResult : Prop :=
  ∀ (s : State), s.pc.toNat + 1 < 256 →
    exec .nop s = .next { s with pc := BitVec.ofNat 8 (s.pc.toNat + 1) }

/-- A well-formed instruction whose pointer cell (if it has one) names a register, not at the very top of memory, runs
without a fatal error (10_state.md section 2, R24; 60_exceptions.md section 1, R213). -/
def Obligations.WellFormedInstructionRunsWithoutError : Prop :=
  ∀ (i : Instr) (s : State), i.wf = true → (∀ r, s.pointerIndexOf i = some r → r < 8) → s.pc.toNat + 3 < 256 →
    ∃ t, exec i s = .next t ∧ t.fault = s.fault

/-! ### Where the instructions trap -/

/-- A direct register operand above 7: `OutOfRange(reg, ..)` is latched and nothing else changes, `a` before `b`; JEQ
and JNE only on the taken path (60_exceptions.md section 1, R213; 10_state.md section 2, R24; log entries 2, 11, 19). -/
def Obligations.BadRegisterOperandTraps : Prop :=
  ∀ (a b : Byte) (s : State),
    (8 ≤ a.toNat → ∀ i ∈ [Instr.add a b, .sub a b, .mul a b, .cmp a b, .ldi a b, .prn a, .jmp a],
      exec i s = .next { s with fault := some (.outOfRange .reg a.toNat) }) ∧
    (a.toNat < 8 → 8 ≤ b.toNat → ∀ i ∈ [Instr.add a b, .sub a b, .mul a b, .cmp a b],
      exec i s = .next { s with fault := some (.outOfRange .reg b.toNat) }) ∧
    (8 ≤ a.toNat → s.e = true → exec (.jeq a) s = .next { s with fault := some (.outOfRange .reg a.toNat) }) ∧
    (8 ≤ a.toNat → s.e = false → exec (.jne a) s = .next { s with fault := some (.outOfRange .reg a.toNat) })

/-- A pointer cell above 7: PUSH has moved `SP` and stored nothing, POP has written nothing, CALL has pushed; `pc` stays
(43_stack.md, PUSH and POP; 44_control.md, CALL; 60_exceptions.md section 2, R216; log entry 2). -/
def Obligations.BadPointerCellTraps : Prop :=
  ∀ (a b : Byte) (s : State) (m : Memory),
    (8 ≤ (s.byteAt a.toNat).toNat →
      exec (.push a) s = .next { s with
        regs := s.regs.set 7 (s.regs[7] - 1), fault := some (.outOfRange .reg (s.byteAt a.toNat).toNat) } ∧
      exec (.pop a) s = .next { s with fault := some (.outOfRange .reg (s.byteAt a.toNat).toNat) }) ∧
    (m = s.mem.write (s.regs[7] - 1).toNat b → 8 ≤ (m.read a.toNat).toNat →
      exec (.call a b) s = .next { s with
        regs := s.regs.set 7 (s.regs[7] - 1), mem := m,
        fault := some (.outOfRange .reg (m.read a.toNat).toNat) })

/-- A three-byte instruction with automatic advance at address 253: the result is written, then `OutOfRange(pc, 256)` is
latched and `pc` stays. The results are those of 41_alu.md part 2 and 42_data_io.md (LDI). For CMP only bit 0 of `FL` is
pinned here; that bits 7:1 stay is in `FrameOfRegisterReaders` (10_state.md section 3, R27; 92_eei_decisions.md D6, log
entry 9; what CMP compares is D4, log entry 8; the bit is D3, log entry 7). -/
def Obligations.AdvancePastTheTopTraps : Prop :=
  ∀ (a b : Byte) (s : State) (ha : a.toNat < 8) (hb : b.toNat < 8), s.pc.toNat = 253 →
    (∀ v : Byte, exec (.ldi a v) s = .next { s with
      regs := s.regs.set a.toNat v, fault := some (.outOfRange .pc 256) }) ∧
    exec (.add a b) s = .next { s with
      regs := s.regs.set a.toNat (s.regs[a.toNat] + s.regs[b.toNat]), fault := some (.outOfRange .pc 256) } ∧
    exec (.sub a b) s = .next { s with
      regs := s.regs.set a.toNat (s.regs[a.toNat] - s.regs[b.toNat]), fault := some (.outOfRange .pc 256) } ∧
    exec (.mul a b) s = .next { s with
      regs := s.regs.set a.toNat (s.regs[a.toNat] * s.regs[b.toNat]), fault := some (.outOfRange .pc 256) } ∧
    ∃ f : Byte, exec (.cmp a b) s = .next { s with fl := f, fault := some (.outOfRange .pc 256) } ∧
      f.getLsbD 0 = decide (s.regs[a.toNat] = s.regs[b.toNat])

/-! ### Frames -/

/-- Frame of ADD, SUB, MUL, LDI: only `x[a]`, `pc` and (on an error) the fault latch may change (41_alu.md part 2;
42_data_io.md, LDI; 70_reset_and_hazards.md section 4, R264 item 10). -/
def Obligations.FrameOfRegisterWriters : Prop :=
  ∀ (a b : Byte) (s t : State), ∀ i ∈ [Instr.add a b, .sub a b, .mul a b, .ldi a b], exec i s = .next t →
    (∀ j : Fin 8, j.val ≠ a.toNat → t.reg j = s.reg j) ∧ t.fl = s.fl ∧ t.running = s.running ∧ t.out = s.out ∧
    (∀ x, t.byteAt x = s.byteAt x) ∧ (t.fault = s.fault ∨ ∃ c n, t.fault = some (.outOfRange c n))

/-- Frame of the instructions that write no register: NOP, HLT, PRN, CMP, JMP, JEQ, JNE leave every register and all
memory; `FL` but CMP (bit 0), `running` but HLT, `out` but PRN (one event appended) (41_alu.md part 1, R147, and part 2,
CMP; 42_data_io.md, PRN; 44_control.md; 45_system.md). That CMP keeps bits 7:1 rests on `E` being bit 0 of `FL`
(10_state.md section 4, R28), which is 92_eei_decisions.md D3 (log entry 7). -/
def Obligations.FrameOfRegisterReaders : Prop :=
  ∀ (a b : Byte) (s t : State), ∀ i ∈ [Instr.nop, .hlt, .prn a, .cmp a b, .jmp a, .jeq a, .jne a],
    exec i s = .next t →
    (∀ j : Fin 8, t.reg j = s.reg j) ∧ (∀ x, t.byteAt x = s.byteAt x) ∧
    (i ≠ .cmp a b → t.fl = s.fl) ∧ (∀ k, 0 < k → k < 8 → t.fl.getLsbD k = s.fl.getLsbD k) ∧
    (i ≠ .hlt → t.running = s.running) ∧
    (i ≠ .prn a → t.out = s.out) ∧ (t.out = s.out ∨ ∃ v, t.out = s.out ++ [.prn v]) ∧
    (t.fault = s.fault ∨ ∃ c n, t.fault = some (.outOfRange c n))

/-- Frame of POP and RET: only the popped-into register (POP), `x[7]`, `pc` and (on an error) the fault latch may change;
all of memory stays (43_stack.md, POP; 44_control.md, RET). -/
def Obligations.FrameOfStackReaders : Prop :=
  ∀ (a : Byte) (s t : State),
    (exec (.pop a) s = .next t →
      (∀ j : Fin 8, j.val ≠ s.pointed a → j.val ≠ 7 → t.reg j = s.reg j) ∧ t.fl = s.fl ∧ t.running = s.running ∧
      t.out = s.out ∧ (∀ x, t.byteAt x = s.byteAt x) ∧
      (t.fault = s.fault ∨ ∃ c n, t.fault = some (.outOfRange c n))) ∧
    (exec .ret s = .next t →
      (∀ j : Fin 8, j.val ≠ 7 → t.reg j = s.reg j) ∧ t.fl = s.fl ∧ t.running = s.running ∧ t.out = s.out ∧
      (∀ x, t.byteAt x = s.byteAt x) ∧ t.fault = s.fault)

/-- Frame of PUSH and CALL: only `x[7]`, `pc`, the cell at the push slot and (on an error) the fault latch may change; a
PUSH with a bad pointer cell stores nothing. The cell is computed by `State.pushSlot`, the function the meanings use, on
the state they apply it to (43_stack.md, PUSH; 44_control.md, CALL; 20_memory.md section 1, R51). -/
def Obligations.FrameOfStackWriters : Prop :=
  ∀ (a b : Byte) (s t : State), ∀ i ∈ [Instr.push a, .call a b], exec i s = .next t →
    (∀ j : Fin 8, j.val ≠ 7 → t.reg j = s.reg j) ∧ t.fl = s.fl ∧ t.running = s.running ∧ t.out = s.out ∧
    (∀ x, x ≠ s.pushSlot.toNat → t.byteAt x = s.byteAt x) ∧
    (i = .push a → 8 ≤ s.pointed a → ∀ x, t.byteAt x = s.byteAt x) ∧
    (t.fault = s.fault ∨ ∃ c n, t.fault = some (.outOfRange c n))

/-! ### The stack (43_stack.md, 44_control.md) -/

/-- The two stack addresses as the model defines them wrap: `pushSlot` is `SP - 1` and `popNext` is `SP + 1`, both modulo
256, of the `SP` of the state they are applied to. What POP and RET leave in `SP` is in `PopResult` and `ReturnResult`
(20_memory.md section 2, R53; 92_eei_decisions.md D5, log entry 10). -/
def Obligations.StackPointerWraps : Prop :=
  ∀ (s : State), s.pushSlot.toNat = (s.regs[7].toNat + 255) % 256 ∧ s.popNext.toNat = (s.regs[7].toNat + 1) % 256

/-- The stack is full-descending and shared: `SP` addresses the last pushed byte; PUSH and CALL decrement then store, POP
and RET load then increment; RET consumes what PUSH pushed and POP what CALL pushed. A POP into `x[7]` increments the popped
byte (43_stack.md R172). -/
def Obligations.StackIsFullDescendingAndShared : Prop :=
  ∀ (s : State), s.mem.wf = true →
    (∀ (a : Byte) (r : Nat) (hr : r < 8), r = (s.byteAt a.toNat).toNat → s.pc.toNat + 2 < 256 →
      ∃ t u, exec (.push a) s = .next t ∧ t.regs[7] = s.regs[7] - 1 ∧
        t.byteAt t.regs[7].toNat = (if r = 7 then s.regs[7] - 1 else s.regs[r]) ∧
        exec .ret t = .next u ∧ u.pc = t.byteAt t.regs[7].toNat ∧ u.regs[7] = s.regs[7]) ∧
    (∀ (a b : Byte), (((s.mem.write (s.regs[7] - 1).toNat b).read a.toNat).toNat < 8) →
      ∃ t, exec (.call a b) s = .next t ∧ t.regs[7] = s.regs[7] - 1 ∧ t.byteAt t.regs[7].toNat = b ∧
        ∀ (p : Byte) (r : Nat) (hr : r < 8), r = (t.byteAt p.toNat).toNat → t.pc.toNat + 2 < 256 →
          ∃ u, exec (.pop p) t = .next u ∧ u.regs[r] = (if r = 7 then b + 1 else b) ∧
            u.regs[7] = (if r = 7 then b + 1 else s.regs[7]))

/-- PUSH then POP through the same pointer cell restores everything but the stack slot and `pc`; if the pointer cell is
the stack slot the property fails in general, an inference the spec marks as derived (43_stack.md, R173). -/
def Obligations.PushThenPopRestores : Prop :=
  (∀ (opc : OpcodeMap) (s : State) (p : Byte) (r : Nat) (hr : r < 8), opc.Valid →
    s.mem.wf = true → s.running = true → s.fault = none → s.pc.toNat + 4 < 256 →
    s.byteAt s.pc.toNat = opc .PUSH → s.byteAt (s.pc.toNat + 1) = p →
    s.byteAt (s.pc.toNat + 2) = opc .POP → s.byteAt (s.pc.toNat + 3) = p →
    r = (s.byteAt p.toNat).toNat → p ≠ s.regs[7] - 1 →
    (s.regs[7] - 1).toNat ≠ s.pc.toNat + 2 → (s.regs[7] - 1).toNat ≠ s.pc.toNat + 3 →
    ∃ t, stepsWith opc 2 s = some t ∧ t.regs = s.regs ∧
      t.byteAt (s.regs[7] - 1).toNat = (if r = 7 then s.regs[7] - 1 else s.regs[r]) ∧
      t = { s with mem := s.mem.write (s.regs[7] - 1).toNat (if r = 7 then s.regs[7] - 1 else s.regs[r]),
                   pc := BitVec.ofNat 8 (s.pc.toNat + 4) }) ∧
  ∃ (s t : State) (p : Byte), s.mem.wf = true ∧ s.running = true ∧ s.fault = none ∧ s.pc.toNat + 4 < 256 ∧
    s.byteAt s.pc.toNat = defaultOpc .PUSH ∧ s.byteAt (s.pc.toNat + 1) = p ∧
    s.byteAt (s.pc.toNat + 2) = defaultOpc .POP ∧ s.byteAt (s.pc.toNat + 3) = p ∧
    (s.byteAt p.toNat).toNat < 8 ∧ p = s.regs[7] - 1 ∧
    (s.regs[7] - 1).toNat ≠ s.pc.toNat + 2 ∧ (s.regs[7] - 1).toNat ≠ s.pc.toNat + 3 ∧
    stepsWith defaultOpc 2 s = some t ∧ t.regs ≠ s.regs

/-- CALL and RET as a pair: CALL goes to the target; a RET from any later state with `SP` and the slot as CALL left them
resumes at the byte CALL pushed, with `SP` as before the CALL (44_control.md, R186, an inference the spec marks as
derived). -/
def Obligations.ReturnResumesAtThePushedByte : Prop :=
  ∀ (a b : Byte) (s : State) (r : Nat) (hr : r < 8), s.mem.wf = true →
    r = (s.byteAt a.toNat).toNat → a ≠ s.regs[7] - 1 →
    ∃ t, exec (.call a b) s = .next t ∧ t.pc = (if r = 7 then s.regs[7] - 1 else s.regs[r]) ∧
      ∀ u : State, u.regs[7] = t.regs[7] → u.byteAt (s.regs[7] - 1).toNat = t.byteAt (s.regs[7] - 1).toNat →
        ∃ v, exec .ret u = .next v ∧ v.pc = b ∧ v.regs[7] = s.regs[7]
end

