-- ==== Sys2Proof/Laws/State.lean ====
section
/-! SUPPORT. One small lemma for each accessor of the state after each update of it. -/

namespace Sys2Proof.Machine

/-! ### setReg -/

@[simp] theorem State.setReg_pc (s : State) (i : Fin 8) (v : Byte) : (s.setReg i v).pc = s.pc := rfl
@[simp] theorem State.setReg_fl (s : State) (i : Fin 8) (v : Byte) : (s.setReg i v).fl = s.fl := rfl
@[simp] theorem State.setReg_running (s : State) (i : Fin 8) (v : Byte) : (s.setReg i v).running = s.running := rfl
@[simp] theorem State.setReg_mem (s : State) (i : Fin 8) (v : Byte) : (s.setReg i v).mem = s.mem := rfl
@[simp] theorem State.setReg_fault (s : State) (i : Fin 8) (v : Byte) : (s.setReg i v).fault = s.fault := rfl
@[simp] theorem State.setReg_out (s : State) (i : Fin 8) (v : Byte) : (s.setReg i v).out = s.out := rfl
@[simp] theorem State.setReg_byteAt (s : State) (i : Fin 8) (v : Byte) (a : Nat) :
    (s.setReg i v).byteAt a = s.byteAt a := rfl

theorem State.setReg_regs (s : State) (i : Fin 8) (v : Byte) : (s.setReg i v).regs = s.regs.set i v := rfl

@[simp] theorem State.setReg_reg_same (s : State) (i : Fin 8) (v : Byte) : (s.setReg i v).reg i = v := by
  simp [State.reg, State.setReg]

theorem State.setReg_reg (s : State) (i j : Fin 8) (v : Byte) :
    (s.setReg i v).reg j = if i = j then v else s.reg j := by
  simp [State.reg, State.setReg, Vector.getElem_set, Fin.ext_iff]

theorem State.setReg_reg_ne (s : State) {i j : Fin 8} (v : Byte) (h : i ≠ j) : (s.setReg i v).reg j = s.reg j := by
  simp [State.setReg_reg, h]

/-- The registers determine the register file. -/
theorem State.regs_ext {s t : State} (h : ∀ i, s.reg i = t.reg i) : s.regs = t.regs := by
  refine Vector.ext fun i hi => ?_
  simpa [State.reg] using h ⟨i, hi⟩

/-! ### setByte -/

@[simp] theorem State.setByte_regs (s : State) (a : Nat) (v : Byte) : (s.setByte a v).regs = s.regs := rfl
@[simp] theorem State.setByte_reg (s : State) (a : Nat) (v : Byte) (i : Fin 8) : (s.setByte a v).reg i = s.reg i := rfl
@[simp] theorem State.setByte_sp (s : State) (a : Nat) (v : Byte) : (s.setByte a v).sp = s.sp := rfl
@[simp] theorem State.setByte_pc (s : State) (a : Nat) (v : Byte) : (s.setByte a v).pc = s.pc := rfl
@[simp] theorem State.setByte_fl (s : State) (a : Nat) (v : Byte) : (s.setByte a v).fl = s.fl := rfl
@[simp] theorem State.setByte_running (s : State) (a : Nat) (v : Byte) : (s.setByte a v).running = s.running := rfl
@[simp] theorem State.setByte_fault (s : State) (a : Nat) (v : Byte) : (s.setByte a v).fault = s.fault := rfl
@[simp] theorem State.setByte_out (s : State) (a : Nat) (v : Byte) : (s.setByte a v).out = s.out := rfl
@[simp] theorem State.setByte_mem (s : State) (a : Nat) (v : Byte) : (s.setByte a v).mem = s.mem.write a v := rfl

/-! ### setE -/

@[simp] theorem State.setE_regs (s : State) (v : Bool) : (s.setE v).regs = s.regs := rfl
@[simp] theorem State.setE_reg (s : State) (v : Bool) (i : Fin 8) : (s.setE v).reg i = s.reg i := rfl
@[simp] theorem State.setE_pc (s : State) (v : Bool) : (s.setE v).pc = s.pc := rfl
@[simp] theorem State.setE_running (s : State) (v : Bool) : (s.setE v).running = s.running := rfl
@[simp] theorem State.setE_mem (s : State) (v : Bool) : (s.setE v).mem = s.mem := rfl
@[simp] theorem State.setE_fault (s : State) (v : Bool) : (s.setE v).fault = s.fault := rfl
@[simp] theorem State.setE_out (s : State) (v : Bool) : (s.setE v).out = s.out := rfl
@[simp] theorem State.setE_byteAt (s : State) (v : Bool) (a : Nat) : (s.setE v).byteAt a = s.byteAt a := rfl

/-- Writing `E` and reading it back. -/
@[simp] theorem State.setE_e (s : State) (v : Bool) : (s.setE v).e = v := by
  cases v <;> simp [State.e, State.setE, withE]

/-- Writing `E` keeps every other bit of `FL`. -/
theorem withE_other (fl : Byte) (v : Bool) (k : Nat) (hk : 0 < k) (h8 : k < 8) :
    (withE fl v).getLsbD k = fl.getLsbD k := by
  have : ∀ k : Fin 8, 0 < k.val → ∀ v : Bool,
      ((0xFE#8).getLsbD k.val = true) ∧ ((if v then 1#8 else 0#8).getLsbD k.val = false) := by decide
  obtain ⟨h1, h2⟩ := this ⟨k, h8⟩ hk v
  simp only [withE, BitVec.getLsbD_or, BitVec.getLsbD_and]
  simp_all

/-! ### latch -/

@[simp] theorem State.latch_regs (s : State) (k : Fault) : (s.latch k).regs = s.regs := rfl
@[simp] theorem State.latch_reg (s : State) (k : Fault) (i : Fin 8) : (s.latch k).reg i = s.reg i := rfl
@[simp] theorem State.latch_sp (s : State) (k : Fault) : (s.latch k).sp = s.sp := rfl
@[simp] theorem State.latch_pc (s : State) (k : Fault) : (s.latch k).pc = s.pc := rfl
@[simp] theorem State.latch_fl (s : State) (k : Fault) : (s.latch k).fl = s.fl := rfl
@[simp] theorem State.latch_e (s : State) (k : Fault) : (s.latch k).e = s.e := rfl
@[simp] theorem State.latch_running (s : State) (k : Fault) : (s.latch k).running = s.running := rfl
@[simp] theorem State.latch_mem (s : State) (k : Fault) : (s.latch k).mem = s.mem := rfl
@[simp] theorem State.latch_byteAt (s : State) (k : Fault) (a : Nat) : (s.latch k).byteAt a = s.byteAt a := rfl
@[simp] theorem State.latch_fault (s : State) (k : Fault) : (s.latch k).fault = some k := rfl
@[simp] theorem State.latch_out (s : State) (k : Fault) : (s.latch k).out = s.out := rfl

/-! ### the stack pointer and the enable -/

@[simp] theorem State.setReg_sp (s : State) (v : Byte) : (s.setReg Config.spIndex v).sp = v :=
  s.setReg_reg_same Config.spIndex v

/-- Enabled means running and not faulted. -/
theorem State.enabled_iff (s : State) : s.enabled = true ↔ s.running = true ∧ s.fault = none := by
  simp [State.enabled, Option.isNone_iff_eq_none]

end Sys2Proof.Machine
end

