-- ==== Sys2Proof/Laws/Memory.lean ====
section
/-! SUPPORT. The laws of memory: reading after writing, and that every operation keeps the canonical form. -/

namespace Sys2Proof.Machine

/-- Below the first address a canonical memory lists, every cell holds the reset value. -/
theorem Memory.read_below {m : Memory} {lo a : Nat} (h : m.wfFrom lo = true) (ha : a < lo) : m.read a = 0 := by
  induction m generalizing lo with
  | nil => rfl
  | cons c rest ih =>
    obtain ⟨k, v⟩ := c
    simp only [Memory.wfFrom, Bool.and_eq_true, decide_eq_true_eq] at h
    have hk : k ≠ a := by omega
    simp only [Memory.read, hk, if_false]
    exact ih h.2 (by omega)

/-- A write leaves every other cell alone, whatever the list. -/
theorem Memory.read_write_ne (m : Memory) {a b : Nat} (v : Byte) (h : a ≠ b) : (m.write a v).read b = m.read b := by
  induction m with
  | nil => simp only [Memory.write]; split <;> simp [Memory.read, h]
  | cons c rest ih =>
    obtain ⟨k, w⟩ := c
    simp only [Memory.write]
    split
    · split <;> simp [Memory.read, h]
    · split
      · rename_i hk
        subst hk
        split <;> simp [Memory.read, h]
      · simp [Memory.read, ih]

theorem Memory.read_write_same_from {m : Memory} {lo : Nat} (h : m.wfFrom lo = true) (a : Nat) (v : Byte) :
    (m.write a v).read a = v := by
  induction m generalizing lo with
  | nil => simp only [Memory.write]; split <;> simp_all [Memory.read]
  | cons c rest ih =>
    obtain ⟨k, w⟩ := c
    have hw := h
    simp only [Memory.wfFrom, Bool.and_eq_true, decide_eq_true_eq] at h
    simp only [Memory.write]
    split
    · rename_i hlt
      split
      · rename_i hv
        have hk : k ≠ a := by omega
        simp only [Memory.read, hk, if_false, hv]
        exact Memory.read_below h.2 (by omega)
      · simp [Memory.read]
    · split
      · rename_i hk
        split
        · rename_i hv
          rw [hv]
          exact Memory.read_below h.2 (by omega)
        · simp [Memory.read]
      · rename_i hk
        have : k ≠ a := fun e => hk e.symm
        simp only [Memory.read, this, if_false]
        exact ih h.2

/-- A read after a write to the same cell of a canonical memory gives the value written. -/
theorem Memory.read_write_same {m : Memory} (h : m.wf = true) (a : Nat) (v : Byte) : (m.write a v).read a = v :=
  Memory.read_write_same_from h a v

theorem Memory.read_write {m : Memory} (h : m.wf = true) (a b : Nat) (v : Byte) :
    (m.write a v).read b = if a = b then v else m.read b := by
  split
  · rename_i e
    subst e
    exact Memory.read_write_same h a v
  · rename_i e
    exact Memory.read_write_ne m v e

theorem Memory.wfFrom_mono {m : Memory} {lo lo' : Nat} (h : m.wfFrom lo = true) (hl : lo' ≤ lo) :
    m.wfFrom lo' = true := by
  cases m with
  | nil => rfl
  | cons c rest =>
    obtain ⟨k, v⟩ := c
    simp only [Memory.wfFrom, Bool.and_eq_true, decide_eq_true_eq] at h ⊢
    exact ⟨⟨⟨by omega, h.1.1.2⟩, h.1.2⟩, h.2⟩

theorem Memory.write_wfFrom {m : Memory} {lo : Nat} (h : m.wfFrom lo = true) {a : Nat} (v : Byte) (hlo : lo ≤ a)
    (ha : a < Config.memSize) : (m.write a v).wfFrom lo = true := by
  induction m generalizing lo with
  | nil =>
    simp only [Memory.write]
    split
    · rfl
    · rename_i hv
      simp only [Memory.wfFrom, Bool.and_eq_true, decide_eq_true_eq]
      exact ⟨⟨⟨hlo, ha⟩, hv⟩, trivial⟩
  | cons c rest ih =>
    obtain ⟨k, w⟩ := c
    have hw := h
    simp only [Memory.wfFrom, Bool.and_eq_true, decide_eq_true_eq] at h
    simp only [Memory.write]
    split
    · split
      · exact hw
      · rename_i hlt hv
        simp only [Memory.wfFrom, Bool.and_eq_true, decide_eq_true_eq]
        exact ⟨⟨⟨hlo, ha⟩, hv⟩, ⟨⟨by omega, h.1.1.2⟩, h.1.2⟩, h.2⟩
    · split
      · rename_i hk
        split
        · exact Memory.wfFrom_mono h.2 (by omega)
        · rename_i hv
          simp only [Memory.wfFrom, Bool.and_eq_true, decide_eq_true_eq]
          exact ⟨⟨⟨hlo, ha⟩, hv⟩, hk ▸ h.2⟩
      · simp only [Memory.wfFrom, Bool.and_eq_true, decide_eq_true_eq]
        exact ⟨h.1, ih h.2 (by omega)⟩

/-- A write inside the address space keeps the canonical form. -/
theorem Memory.write_wf {m : Memory} (h : m.wf = true) {a : Nat} (v : Byte) (ha : a < Config.memSize) :
    (m.write a v).wf = true :=
  Memory.write_wfFrom h v (Nat.zero_le a) ha

/-- Writing a list inside the address space keeps the canonical form. -/
theorem Memory.writeList_wf {m : Memory} (h : m.wf = true) (vs : List Byte) {a : Nat}
    (ha : a + vs.length ≤ Config.memSize) : (m.writeList a vs).wf = true := by
  induction vs generalizing m a with
  | nil => exact h
  | cons v vs ih =>
    simp only [List.length_cons] at ha
    exact ih (Memory.write_wf h v (by omega)) (by omega)

/-- What `writeList` leaves in each cell. -/
theorem Memory.writeList_read {m : Memory} (h : m.wf = true) (vs : List Byte) {a : Nat}
    (ha : a + vs.length ≤ Config.memSize) (b : Nat) :
    (m.writeList a vs).read b = if a ≤ b then vs.getD (b - a) (m.read b) else m.read b := by
  induction vs generalizing m a with
  | nil => simp [Memory.writeList]
  | cons v vs ih =>
    simp only [List.length_cons] at ha
    rw [Memory.writeList, ih (Memory.write_wf h v (by omega)) (by omega), Memory.read_write h]
    by_cases hab : a = b
    · subst hab
      simp
    · by_cases hle : a ≤ b
      · have h1 : a + 1 ≤ b := by omega
        obtain ⟨d, rfl⟩ : ∃ d, b = a + 1 + d := ⟨b - (a + 1), by omega⟩
        have e2 : a + 1 + d - a = d + 1 := by omega
        rw [if_pos h1, if_pos hle, if_neg hab, e2, Nat.add_sub_cancel_left, List.getD_cons_succ]
      · have h1 : ¬ a + 1 ≤ b := by omega
        simp [hab, hle, h1]

/-- The memory of the reset state is canonical. -/
theorem Memory.reset_wf : State.reset.mem.wf = true := rfl

@[simp] theorem State.setByte_byteAt_ne (s : State) {a b : Nat} (v : Byte) (h : a ≠ b) :
    (s.setByte a v).byteAt b = s.byteAt b := Memory.read_write_ne s.mem v h

theorem State.setByte_byteAt_same {s : State} (h : s.mem.wf = true) (a : Nat) (v : Byte) :
    (s.setByte a v).byteAt a = v := Memory.read_write_same h a v

end Sys2Proof.Machine
end

