-- ==== Sys2Proof/Laws/Ops.lean ====
section
/-! SUPPORT. For each shared operation, the lemmas that say everything it can do. -/

namespace Sys2Proof.Machine

/-! ### Sequencing -/

theorem Exec.run_bind {α β : Type} (x : Exec α) (f : α → Exec β) (s : State) :
    (x >>= f).run s = match x.run s with
      | .ok v t => (f v).run t
      | .error k t => .error k t := by
  change EStateM.bind x f s = _
  simp only [EStateM.bind, EStateM.run]
  cases x s <;> rfl

theorem Exec.run_pure {α : Type} (v : α) (s : State) : (pure v : Exec α).run s = .ok v s := rfl

/-- A cycle whose first part returns goes on from the state it leaves. -/
theorem Exec.bind_ok {α β : Type} {x : Exec α} {f : α → Exec β} {s t : State} {v : α} (h : x.run s = .ok v t) :
    (x >>= f).run s = (f v).run t := by
  rw [Exec.run_bind, h]

/-- A cycle whose first part raises ends there. -/
theorem Exec.bind_error {α β : Type} {x : Exec α} {f : α → Exec β} {s t : State} {k : Fault}
    (h : x.run s = .error k t) : (x >>= f).run s = .error k t := by
  rw [Exec.run_bind, h]

theorem runCycle_ok {c : Exec Unit} {s t : State} (h : c.run s = .ok () t) : runCycle c s = .next t := by
  simp only [runCycle, h]

theorem runCycle_error {c : Exec Unit} {s t : State} {k : Fault} (h : c.run s = .error k t) :
    runCycle c s = .next (t.latch k) := by
  simp only [runCycle, h, takeFault]

/-- A cycle answers a next state, and says which: it returned, or it raised. -/
theorem runCycle_cases (c : Exec Unit) (s : State) :
    (∃ t, c.run s = .ok () t ∧ runCycle c s = .next t) ∨
      ∃ k t, c.run s = .error k t ∧ runCycle c s = .next (t.latch k) := by
  cases h : c.run s with
  | ok v t => exact .inl ⟨t, rfl, runCycle_ok h⟩
  | error k t => exact .inr ⟨k, t, rfl, runCycle_error h⟩

/-! ### Registers -/

theorem readReg_valid {i : Nat} (h : i < 8) (s : State) : (readReg i).run s = .ok (s.reg ⟨i, h⟩) s := dif_pos h

theorem readReg_invalid {i : Nat} (h : 8 ≤ i) (s : State) : (readReg i).run s = .error (.outOfRange .reg i) s :=
  dif_neg (Nat.not_lt.mpr h)

theorem writeReg_valid {i : Nat} (h : i < 8) (v : Byte) (s : State) :
    (writeReg i v).run s = .ok () (s.setReg ⟨i, h⟩ v) := dif_pos h

theorem writeReg_invalid {i : Nat} (h : 8 ≤ i) (v : Byte) (s : State) :
    (writeReg i v).run s = .error (.outOfRange .reg i) s := dif_neg (Nat.not_lt.mpr h)

theorem readOperand_valid {a : Byte} (h : a.toNat < 8) (s : State) :
    (readOperand a).run s = .ok (s.reg ⟨a.toNat, h⟩) s := readReg_valid h s

theorem readOperand_invalid {a : Byte} (h : 8 ≤ a.toNat) (s : State) :
    (readOperand a).run s = .error (.outOfRange .reg a.toNat) s := readReg_invalid h s

theorem writeOperand_valid {a : Byte} (h : a.toNat < 8) (v : Byte) (s : State) :
    (writeOperand a v).run s = .ok () (s.setReg ⟨a.toNat, h⟩ v) := writeReg_valid h v s

theorem writeOperand_invalid {a : Byte} (h : 8 ≤ a.toNat) (v : Byte) (s : State) :
    (writeOperand a v).run s = .error (.outOfRange .reg a.toNat) s := writeReg_invalid h v s

theorem readSp_run (s : State) : readSp.run s = .ok s.sp s := rfl
theorem writeSp_run (v : Byte) (s : State) : (writeSp v).run s = .ok () (s.setReg Config.spIndex v) := rfl
theorem readPushSlot_run (s : State) : readPushSlot.run s = .ok s.pushSlot s := rfl
theorem readPopNext_run (s : State) : readPopNext.run s = .ok s.popNext s := rfl

/-! ### Flags, output, halting -/

theorem readE_run (s : State) : readE.run s = .ok s.e s := rfl
theorem writeE_run (v : Bool) (s : State) : (writeE v).run s = .ok () (s.setE v) := rfl
theorem emit_run (e : Event) (s : State) : (emit e).run s = .ok () { s with out := s.out ++ [e] } := rfl
theorem halt_run (s : State) : halt.run s = .ok () { s with running := false } := rfl

/-! ### Memory -/

theorem memRead_inside {a : Nat} (h : a < 256) (s : State) : (memRead a).run s = .ok (s.byteAt a) s := if_pos h

theorem memRead_outside {a : Nat} (h : 256 ≤ a) (s : State) :
    (memRead a).run s = .error (.outOfRange .mem a) s := if_neg (Nat.not_lt.mpr h)

/-- A byte used as an address never leaves the address space (20_memory.md R52). -/
theorem memRead_byte (a : Byte) (s : State) : (memRead a.toNat).run s = .ok (s.byteAt a.toNat) s :=
  memRead_inside a.isLt s

theorem memWrite_byte (a v : Byte) (s : State) : (memWrite a.toNat v).run s = .ok () (s.setByte a.toNat v) :=
  if_pos a.isLt

theorem memWrite_outside {a : Nat} (h : 256 ≤ a) (v : Byte) (s : State) :
    (memWrite a v).run s = .error (.outOfRange .mem a) s := if_neg (Nat.not_lt.mpr h)

theorem pointerIndex_run (a : Byte) (s : State) : (pointerIndex a).run s = .ok (s.pointed a) s := by
  rw [pointerIndex, Exec.bind_ok (memRead_byte a s)]
  rfl

/-! ### The program counter -/

theorem readPc_run (s : State) : readPc.run s = .ok s.pc.toNat s := rfl

theorem writePc_inside {n : Nat} (h : n < 256) (s : State) :
    (writePc n).run s = .ok () { s with pc := BitVec.ofNat 8 n } := if_pos h

theorem writePc_outside {n : Nat} (h : 256 ≤ n) (s : State) :
    (writePc n).run s = .error (.outOfRange .pc n) s := if_neg (Nat.not_lt.mpr h)

/-- A byte as a target is always in range (10_state.md R27). -/
theorem writePc_byte (v : Byte) (s : State) : (writePc v.toNat).run s = .ok () { s with pc := v } := by
  rw [writePc_inside v.isLt, BitVec.ofNat_toNat, BitVec.setWidth_eq]

/-- The advance of an opcode with `sets_pc` = 1 does nothing. -/
theorem advance_setsPc {op : Byte} (h : setsPc op = true) (s : State) : (advance op).run s = .ok () s := by
  rw [advance, if_pos h]
  rfl

/-- The advance of an opcode with `sets_pc` = 0. -/
theorem advance_eq {op : Byte} (h : setsPc op = false) (s : State) :
    (advance op).run s = (writePc (s.pc.toNat + operandCount op + 1)).run s := by
  rw [advance, if_neg (by simp [h]), Exec.bind_ok (readPc_run s)]

/-- Everything the advance can do: it moves only `pc`, or it raises at the top of memory and changes nothing. -/
theorem advance_cases (op : Byte) (s : State) :
    (∃ p, (advance op).run s = .ok () { s with pc := p }) ∨
      ∃ n, 256 ≤ n ∧ n = s.pc.toNat + operandCount op + 1 ∧ (advance op).run s = .error (.outOfRange .pc n) s := by
  cases h : setsPc op with
  | true => exact .inl ⟨s.pc, advance_setsPc h s⟩
  | false =>
    rw [advance_eq h]
    by_cases hn : s.pc.toNat + operandCount op + 1 < 256
    · exact .inl ⟨_, writePc_inside hn s⟩
    · exact .inr ⟨_, Nat.le_of_not_lt hn, rfl, writePc_outside (Nat.le_of_not_lt hn) s⟩

/-! ### The ALU and the branch -/

theorem aluBinary_valid (f : Byte → Byte → Byte) {a b : Byte} (ha : a.toNat < 8) (hb : b.toNat < 8) (s : State) :
    (aluBinary f a b).run s =
      .ok () (s.setReg ⟨a.toNat, ha⟩ (f (s.reg ⟨a.toNat, ha⟩) (s.reg ⟨b.toNat, hb⟩))) := by
  rw [aluBinary, Exec.bind_ok (readOperand_valid ha s), Exec.bind_ok (readOperand_valid hb s)]
  exact writeOperand_valid ha _ s

/-- A bad first index is reported before anything else happens (41_alu.md R130). -/
theorem aluBinary_bad_left (f : Byte → Byte → Byte) {a : Byte} (b : Byte) (ha : 8 ≤ a.toNat) (s : State) :
    (aluBinary f a b).run s = .error (.outOfRange .reg a.toNat) s := by
  rw [aluBinary, Exec.bind_error (readOperand_invalid ha s)]

theorem aluBinary_bad_right (f : Byte → Byte → Byte) {a b : Byte} (ha : a.toNat < 8) (hb : 8 ≤ b.toNat) (s : State) :
    (aluBinary f a b).run s = .error (.outOfRange .reg b.toNat) s := by
  rw [aluBinary, Exec.bind_ok (readOperand_valid ha s), Exec.bind_error (readOperand_invalid hb s)]

theorem aluCmp_valid {a b : Byte} (ha : a.toNat < 8) (hb : b.toNat < 8) (s : State) :
    (aluCmp a b).run s = .ok () (s.setE (equalFlag (s.reg ⟨a.toNat, ha⟩) (s.reg ⟨b.toNat, hb⟩))) := by
  rw [aluCmp, Exec.bind_ok (readOperand_valid ha s), Exec.bind_ok (readOperand_valid hb s)]
  rfl

theorem aluCmp_bad_left {a : Byte} (b : Byte) (ha : 8 ≤ a.toNat) (s : State) :
    (aluCmp a b).run s = .error (.outOfRange .reg a.toNat) s := by
  rw [aluCmp, Exec.bind_error (readOperand_invalid ha s)]

theorem aluCmp_bad_right {a b : Byte} (ha : a.toNat < 8) (hb : 8 ≤ b.toNat) (s : State) :
    (aluCmp a b).run s = .error (.outOfRange .reg b.toNat) s := by
  rw [aluCmp, Exec.bind_ok (readOperand_valid ha s), Exec.bind_error (readOperand_invalid hb s)]

theorem branch_taken {a : Byte} (ha : a.toNat < 8) (s : State) :
    (branch true a).run s = .ok () { s with pc := s.reg ⟨a.toNat, ha⟩ } := by
  rw [branch, if_pos rfl, Exec.bind_ok (readOperand_valid ha s), writePc_byte]

theorem branch_taken_bad {a : Byte} (ha : 8 ≤ a.toNat) (s : State) :
    (branch true a).run s = .error (.outOfRange .reg a.toNat) s := by
  rw [branch, if_pos rfl, Exec.bind_error (readOperand_invalid ha s)]

/-- Not taken, the register is not looked at (44_control.md R183). -/
theorem branch_not_taken (a : Byte) (s : State) : (branch false a).run s = (writePc (s.pc.toNat + 2)).run s := by
  rw [branch, if_neg (by simp), Exec.bind_ok (readPc_run s)]

/-! ### Fetch -/

/-- Below address 254 the three reads of a cycle succeed and change nothing. -/
theorem fetchLatches_inside {s : State} (h : s.pc.toNat + 2 < 256) :
    fetchLatches.run s =
      .ok ⟨s.byteAt s.pc.toNat, s.byteAt (s.pc.toNat + 1), s.byteAt (s.pc.toNat + 2)⟩ s := by
  rw [fetchLatches, Exec.bind_ok (readPc_run s), Exec.bind_ok (memRead_inside (by omega : s.pc.toNat < 256) s),
    Exec.bind_ok (memRead_inside (by omega : s.pc.toNat + 1 < 256) s), Exec.bind_ok (memRead_inside h s)]
  rfl

/-- From address 254 or 255 an operand read raises, and nothing has changed. -/
theorem fetchLatches_top {s : State} (h : 256 ≤ s.pc.toNat + 2) :
    fetchLatches.run s = .error (.outOfRange .mem 256) s := by
  have hlt : s.pc.toNat < 256 := s.pc.isLt
  rw [fetchLatches, Exec.bind_ok (readPc_run s), Exec.bind_ok (memRead_inside hlt s)]
  by_cases h1 : s.pc.toNat + 1 < 256
  · rw [Exec.bind_ok (memRead_inside h1 s), Exec.bind_error (memRead_outside h s),
      (by omega : s.pc.toNat + 2 = 256)]
  · rw [Exec.bind_error (memRead_outside (Nat.le_of_not_lt h1) s), (by omega : s.pc.toNat + 1 = 256)]

/-- Steps 1 to 4 below address 254: they change nothing, and give the decoded instruction or raise
`UnknownInstruction`. -/
theorem fetchInstr_inside (opc : OpcodeMap) {s : State} (h : s.pc.toNat + 2 < 256) :
    (fetchInstr opc).run s =
      match decodeWith opc (s.byteAt s.pc.toNat) (s.byteAt (s.pc.toNat + 1)) (s.byteAt (s.pc.toNat + 2)) with
      | .ok i => .ok i s
      | .error _ => .error (.unknownInstruction s.pc (s.byteAt s.pc.toNat)) s := by
  rw [fetchInstr, Exec.bind_ok (fetchLatches_inside h)]
  rfl

theorem fetchInstr_top (opc : OpcodeMap) {s : State} (h : 256 ≤ s.pc.toNat + 2) :
    (fetchInstr opc).run s = .error (.outOfRange .mem 256) s := by
  rw [fetchInstr, Exec.bind_error (fetchLatches_top h)]

end Sys2Proof.Machine
end

