-- ==== Sys2Proof/Laws/PerInstr.lean ====
section
/-! SUPPORT. Statements about every instruction as syntax, one lemma per constructor. -/

namespace Sys2Proof.Laws

/-- An instruction has at most two operand bytes, and is rebuilt from its mnemonic and the latches they fill, whatever
the latches it does not use hold (30_encoding.md R80; 40_cycle_dispatch.md R117). -/
def LatchesRebuild.Statement (i : Instr) : Prop :=
  i.operandBytes.length ≤ 2 ∧
    ∀ x y : Byte, i.mnemonic.withLatches (i.operandBytes.getD 0 x) (i.operandBytes.getD 1 y) = i

theorem LatchesRebuild.nop : LatchesRebuild.Statement .nop := ⟨by decide, fun _ _ => rfl⟩
theorem LatchesRebuild.hlt : LatchesRebuild.Statement .hlt := ⟨by decide, fun _ _ => rfl⟩
theorem LatchesRebuild.ret : LatchesRebuild.Statement .ret := ⟨by decide, fun _ _ => rfl⟩
theorem LatchesRebuild.push (a : Byte) : LatchesRebuild.Statement (.push a) := ⟨by simp [Instr.operandBytes], fun _ _ => rfl⟩
theorem LatchesRebuild.pop (a : Byte) : LatchesRebuild.Statement (.pop a) := ⟨by simp [Instr.operandBytes], fun _ _ => rfl⟩
theorem LatchesRebuild.prn (a : Byte) : LatchesRebuild.Statement (.prn a) := ⟨by simp [Instr.operandBytes], fun _ _ => rfl⟩
theorem LatchesRebuild.call (a b : Byte) : LatchesRebuild.Statement (.call a b) := ⟨by simp [Instr.operandBytes], fun _ _ => rfl⟩
theorem LatchesRebuild.jmp (a : Byte) : LatchesRebuild.Statement (.jmp a) := ⟨by simp [Instr.operandBytes], fun _ _ => rfl⟩
theorem LatchesRebuild.jeq (a : Byte) : LatchesRebuild.Statement (.jeq a) := ⟨by simp [Instr.operandBytes], fun _ _ => rfl⟩
theorem LatchesRebuild.jne (a : Byte) : LatchesRebuild.Statement (.jne a) := ⟨by simp [Instr.operandBytes], fun _ _ => rfl⟩
theorem LatchesRebuild.ldi (a b : Byte) : LatchesRebuild.Statement (.ldi a b) := ⟨by simp [Instr.operandBytes], fun _ _ => rfl⟩
theorem LatchesRebuild.add (a b : Byte) : LatchesRebuild.Statement (.add a b) := ⟨by simp [Instr.operandBytes], fun _ _ => rfl⟩
theorem LatchesRebuild.sub (a b : Byte) : LatchesRebuild.Statement (.sub a b) := ⟨by simp [Instr.operandBytes], fun _ _ => rfl⟩
theorem LatchesRebuild.mul (a b : Byte) : LatchesRebuild.Statement (.mul a b) := ⟨by simp [Instr.operandBytes], fun _ _ => rfl⟩
theorem LatchesRebuild.cmp (a b : Byte) : LatchesRebuild.Statement (.cmp a b) := ⟨by simp [Instr.operandBytes], fun _ _ => rfl⟩

end Sys2Proof.Laws
end

