-- ==== Sys2Proof/Laws/Decode.lean ====
section
/-! SUPPORT. What the lookup and the decoder can answer. -/

namespace Sys2Proof

theorem Mnemonic.mem_all (m : Mnemonic) : m ∈ Mnemonic.all := by cases m <;> decide

/-- Under a valid map a mnemonic's own byte is looked up as that mnemonic. -/
theorem lookup_own {opc : OpcodeMap} (h : opc.Valid) (m : Mnemonic) : lookup opc (opc m) = some m := by
  unfold lookup
  cases hf : Mnemonic.all.find? (fun n => opc n == opc m) with
  | none => simpa using List.find?_eq_none.mp hf m m.mem_all
  | some n => exact congrArg some (h.distinct _ _ (by simpa using List.find?_some hf))

/-- What is found is a mnemonic of that byte. -/
theorem lookup_sound {opc : OpcodeMap} {op : Byte} {m : Mnemonic} (h : lookup opc op = some m) : opc m = op := by
  simpa using List.find?_some h

/-- A byte of no mnemonic is not found. -/
theorem lookup_none {opc : OpcodeMap} {op : Byte} (h : ∀ m, opc m ≠ op) : lookup opc op = none := by
  rw [lookup, List.find?_eq_none]
  intro m _
  simpa using h m

/-- Everything decoding can answer. -/
theorem decodeWith_cases (opc : OpcodeMap) (op a b : Byte) :
    (∃ m, opc m = op ∧ decodeWith opc op a b = .ok (m.withLatches a b)) ∨
      decodeWith opc op a b = .error (.unknownInstruction op) := by
  unfold decodeWith
  cases h : lookup opc op with
  | some m => exact .inl ⟨m, lookup_sound h, rfl⟩
  | none => exact .inr rfl

@[simp] theorem Mnemonic.withLatches_mnemonic (m : Mnemonic) (a b : Byte) : (m.withLatches a b).mnemonic = m := by
  cases m <;> rfl

end Sys2Proof
end

