-- ==== Sys2Proof/Laws/Step.lean ====
section
/-! SUPPORT. Everything one step can do, said once; and the memory of a failed load. -/

namespace Sys2Proof.Machine

theorem stepWith_idle (opc : OpcodeMap) {s : State} (h : s.enabled = false) : stepWith opc s = .next s := by
  simp [stepWith, h, idle]

/-- Everything a step can do: nothing, an operand read past the top of memory, an unknown opcode, or the decoded
instruction. -/
theorem stepWith_cases (opc : OpcodeMap) (s : State) :
    (s.enabled = false ∧ stepWith opc s = .next s) ∨
    (s.running = true ∧ s.fault = none ∧
      ((254 ≤ s.pc.toNat ∧ stepWith opc s = .next (s.latch (.outOfRange .mem 256))) ∨
       (s.pc.toNat < 254 ∧ stepWith opc s = .next (s.latch (.unknownInstruction s.pc (s.byteAt s.pc.toNat)))) ∨
       (s.pc.toNat < 254 ∧ ∃ m, opc m = s.byteAt s.pc.toNat ∧
          stepWith opc s =
            exec (m.withLatches (s.byteAt (s.pc.toNat + 1)) (s.byteAt (s.pc.toNat + 2))) s))) := by
  cases he : s.enabled with
  | false => exact .inl ⟨rfl, stepWith_idle opc he⟩
  | true =>
    obtain ⟨hr, hf⟩ := s.enabled_iff.mp he
    refine .inr ⟨hr, hf, ?_⟩
    by_cases hp : s.pc.toNat < 254
    · have hfetch := fetchInstr_inside opc (s := s) (by omega)
      rcases decodeWith_cases opc (s.byteAt s.pc.toNat) (s.byteAt (s.pc.toNat + 1)) (s.byteAt (s.pc.toNat + 2)) with
        ⟨m, hm, hd⟩ | hd
      · exact .inr (.inr ⟨hp, m, hm, by simp only [stepWith, he, if_true, hfetch, hd]⟩)
      · exact .inr (.inl ⟨hp, by simp only [stepWith, he, if_true, hfetch, hd, takeFault]⟩)
    · exact .inl ⟨by omega, by
        simp only [stepWith, he, if_true, fetchInstr_top opc (by omega : 256 ≤ s.pc.toNat + 2), takeFault]⟩

/-- Whatever a failed load leaves, it is a memory of 256 cells in canonical form. -/
theorem failedLoadMemory_wf (image : List Byte) : (failedLoadMemory image).wf = true := by
  have h : ((List.range Config.memSize).map (Config.failedLoadByte image)).length = Config.memSize := by
    rw [List.length_map, List.length_range]
  exact Memory.writeList_wf (m := []) rfl _ (by rw [h, Nat.zero_add])

end Sys2Proof.Machine
end

