-- ==== Sys2Proof/Tests/Slice0.lean ====
section
/-! SUPPORT. Tests. Expected results are the vectors of 95_test_vectors.md (named `V-...` there) or words written out
from 30_encoding.md R84 and R85; `witness_...` theorems show states that meet the hypotheses of an obligation. -/

namespace Sys2Proof.Tests

open Sys2Proof.Machine

/-- The state of a next outcome. -/
def after (o : Host.Outcome State Fault Refusal) : Option State :=
  match o with
  | .next t => some t
  | .fault _ => none
  | .refused _ => none

/-- The next state of one part of a cycle, if it does not raise. -/
def done (c : Exec Unit) (s : State) : Option State :=
  match c.run s with
  | .ok _ t => some t
  | .error _ _ => none

/-- A reset machine with `cells` as its memory and `regs` as its registers. -/
def mk (cells : Memory) (regs : Vector Byte 8 := Vector.replicate 8 0) : State :=
  { State.reset with mem := cells, regs := regs }

/-- The same at another program counter. -/
def mkAt (pc : Byte) (cells : Memory) (regs : Vector Byte 8 := Vector.replicate 8 0) : State :=
  { mk cells regs with pc := pc }

/-- The same with `E` set. -/
def mkE (cells : Memory) (regs : Vector Byte 8 := Vector.replicate 8 0) : State :=
  { mk cells regs with fl := 1 }

/-- A valid opcode map other than the default one: bit 5 of every opcode byte, which drives nothing (30_encoding.md
R81), is turned over. -/
def otherOpc : OpcodeMap := fun m => defaultOpc m ^^^ 0x20#8

/-! ### Well-formedness refuses -/

theorem test_wf_refuses_prn : (Instr.prn 8).wf = false := by decide
theorem test_wf_refuses_jmp : (Instr.jmp 8).wf = false := by decide
theorem test_wf_refuses_jeq : (Instr.jeq 200).wf = false := by decide
theorem test_wf_refuses_jne : (Instr.jne 255).wf = false := by decide
theorem test_wf_refuses_ldi : (Instr.ldi 8 0).wf = false := by decide
theorem test_wf_refuses_left_operand : (Instr.add 8 0).wf = false ∧ (Instr.cmp 9 7).wf = false := by decide
theorem test_wf_refuses_right_operand : (Instr.sub 0 8).wf = false ∧ (Instr.mul 7 8).wf = false := by decide
theorem test_wf_accepts_any_pointer_or_immediate :
    (Instr.push 255).wf = true ∧ (Instr.pop 8).wf = true ∧ (Instr.call 200 200).wf = true ∧
      (Instr.ldi 7 255).wf = true := by decide

/-! ### Decoding is right: words written out bit by bit, opcode in bits 7:0, `a` in 15:8, `b` in 23:16 -/

theorem test_decode_nop : decodeTableWord 8 0b00000000 = some .nop := by decide
theorem test_decode_hlt : decodeTableWord 8 0b00000001 = some .hlt := by decide
theorem test_decode_ret : decodeTableWord 8 0b00010001 = some .ret := by decide
theorem test_decode_push : decodeTableWord 16 0b00000011_01000101 = some (.push 3) := by decide
theorem test_decode_pop : decodeTableWord 16 0b11111111_01000110 = some (.pop 255) := by decide
theorem test_decode_prn : decodeTableWord 16 0b00000111_01000111 = some (.prn 7) := by decide
theorem test_decode_call : decodeTableWord 24 0b00001001_00000001_01010000 = some (.call 1 9) := by decide
theorem test_decode_jmp : decodeTableWord 16 0b00000011_01010100 = some (.jmp 3) := by decide
theorem test_decode_jeq : decodeTableWord 16 0b00000100_01010101 = some (.jeq 4) := by decide
theorem test_decode_jne : decodeTableWord 16 0b00000011_01010110 = some (.jne 3) := by decide
theorem test_decode_ldi : decodeTableWord 24 0b11110100_00000111_10000010 = some (.ldi 7 0xF4) := by decide
theorem test_decode_add : decodeTableWord 24 0b00000001_00000000_10100000 = some (.add 0 1) := by decide
theorem test_decode_sub : decodeTableWord 24 0b00000011_00000010_10100001 = some (.sub 2 3) := by decide
theorem test_decode_mul : decodeTableWord 24 0b00000001_00000000_10100010 = some (.mul 0 1) := by decide
theorem test_decode_cmp : decodeTableWord 24 0b00000010_00000000_10100111 = some (.cmp 0 2) := by decide
/-- Bytes of LS-8 instructions this core lacks are illegal (30_encoding.md R88). -/
theorem test_decode_refuses :
    decodeTableWord 24 0xA8 = none ∧ decodeTableWord 24 0xA3 = none ∧ decodeTableWord 8 0x13 = none ∧
      decodeTableWord 8 0xFF = none := by decide
/-- A row word shorter than the instruction: the operand bytes are 0. -/
theorem test_decode_short_word : decodeTableWord 8 0xFFFF82 = some (.ldi 0 0) := by decide
theorem test_decode_needs_three_bytes :
    decodeBytesWith defaultOpc [1, 0] = .error (.latchMissing 2) := by rfl
/-- The literal `10000010` (X1). -/
theorem test_control_fields : operandCount 0b10000010 = 2 ∧ setsPc 0b10000010 = false ∧
    operandCount 0b01010000 = 1 ∧ setsPc 0b01010000 = true := by decide

/-! ### One step (the vector's name is in the comment) -/

/-- V-DEC-10 -/
theorem test_nop : after (step (mk [])) = some (mkAt 1 []) := by decide
/-- V-DEC-3 -/
theorem test_hlt : (after (step (mkAt 253 [(253, 1)]))).map (fun t => (t.running, t.pc, t.fault)) =
    some (false, 254, none) := by decide
/-- V-DEC-6 -/
theorem test_hlt_at_254 : (after (step (mkAt 254 [(254, 1)]))).map (fun t => (t.running, t.pc, t.fault)) =
    some (true, 254, some (.outOfRange .mem 256)) := by decide
/-- V-CTL-5 -/
theorem test_ret : (after (step (mk [(0, 0x11), (255, 9)] #v[0, 0, 0, 0, 0, 0, 0, 255]))).map (fun t => (t.pc, t.sp)) =
    some (9, 0) := by decide
/-- V-CTL-6 -/
theorem test_ret_reset : (after (step (mk [(0, 0x11)]))).map (fun t => (t.pc, t.sp)) = some (17, 1) := by decide
/-- V-STK-2 -/
theorem test_push_sp : (after (step (mk [(0, 0x45), (1, 2), (2, 7)] #v[0, 0, 0, 0, 0, 0, 0, 16]))).map
    (fun t => (t.sp, t.byteAt 15, t.pc)) = some (15, 15, 2) := by decide
/-- V-STK-4 -/
theorem test_push_over_pointer : (after (step (mk [(0, 0x45), (1, 255), (255, 3)] #v[0, 0, 0, 0xAA, 0, 0, 0, 0]))).map
    (fun t => (t.sp, t.byteAt 255, t.fault)) = some (255, 0xAA, none) := by decide
/-- V-STK-5 -/
theorem test_pop_wraps : (after (step (mk [(0, 0x46), (1, 2), (2, 1), (255, 0x77)] #v[0, 0, 0, 0, 0, 0, 0, 255]))).map
    (fun t => (t.reg 1, t.sp, t.byteAt 255, t.pc)) = some (0x77, 0, 0x77, 2) := by decide
/-- V-STK-6 -/
theorem test_pop_sp : (after (step (mk [(0, 0x46), (1, 2), (2, 7), (0x20, 0x40)] #v[0, 0, 0, 0, 0, 0, 0, 0x20]))).map
    (fun t => (t.sp, t.pc)) = some (0x41, 2) := by decide
/-- V-DIO-4 -/
theorem test_prn : (after (step (mk [(0, 0x47), (1, 3)] #v[0, 0, 0, 255, 0, 0, 0, 0]))).map
    (fun t => (t.out, t.out.map Event.line, t.pc)) = some ([.prn 255], [some "255"], 2) := by decide
/-- V-DIO-5 -/
theorem test_prn_bad : (after (step (mk [(0, 0x47), (1, 9)]))).map (fun t => (t.out, t.fault)) =
    some ([], some (.outOfRange .reg 9)) := by decide
/-- V-CTL-3 -/
theorem test_call_over_pointer :
    (after (step (mk [(0, 0x50), (1, 255), (2, 2), (255, 6)] #v[0, 0, 0x33, 0, 0, 0, 0, 0]))).map
      (fun t => (t.byteAt 255, t.pc, t.sp)) = some (2, 0x33, 255) := by decide
/-- V-CTL-4 -/
theorem test_call_sp : (after (step (mk [(0, 0x50), (1, 3), (2, 0x99), (3, 7)] #v[0, 0, 0, 0, 0, 0, 0, 0x80]))).map
    (fun t => (t.byteAt 0x7F, t.pc, t.sp)) = some (0x99, 0x7F, 0x7F) := by decide
/-- V-CTL-7 -/
theorem test_jmp : (after (step (mk [(0, 0x54), (1, 3)] #v[0, 0, 0, 12, 0, 0, 0, 0]))).map (fun t => t.pc) = some 12 := by
  decide
/-- V-CTL-8 -/
theorem test_jmp_bad : (after (step (mk [(0, 0x54), (1, 8)]))).map (fun t => (t.pc, t.fault)) =
    some (0, some (.outOfRange .reg 8)) := by decide
/-- V-CTL-9 -/
theorem test_jeq_taken : (after (step (mkE [(0, 0x55), (1, 2)] #v[0, 0, 40, 0, 0, 0, 0, 0]))).map
    (fun t => (t.pc, t.e)) = some (40, true) := by decide
/-- V-CTL-10b -/
theorem test_jeq_not_taken_any_operand : (after (step (mk [(0, 0x55), (1, 0xC8)]))).map (fun t => (t.pc, t.fault)) =
    some (2, none) := by decide
/-- V-CTL-11 -/
theorem test_jne_taken : (after (step (mk [(0, 0x56), (1, 3)] #v[0, 0, 0, 12, 0, 0, 0, 0]))).map (fun t => t.pc) =
    some 12 := by decide
/-- V-CTL-12 -/
theorem test_jne_not_taken : (after (step (mkE [(0, 0x56), (1, 3)] #v[0, 0, 0, 12, 0, 0, 0, 0]))).map (fun t => t.pc) =
    some 2 := by decide
/-- V-DIO-2 -/
theorem test_ldi : (after (step (mk [(0, 0x82), (1, 7), (2, 0xF4)]))).map (fun t => (t.sp, t.pc)) =
    some (244, 3) := by decide
/-- V-DEC-5, with register 0 holding 9 before -/
theorem test_ldi_at_253 : (after (step (mkAt 253 [(253, 0x82)] #v[9, 0, 0, 0, 0, 0, 0, 0]))).map
    (fun t => (t.reg 0, t.fault, t.pc)) = some (0, some (.outOfRange .pc 256), 253) := by decide
/-- V-ALU-1 -/
theorem test_add_wraps : (after (step (mk [(0, 0xA0), (2, 1)] #v[255, 2, 0, 0, 0, 0, 0, 0]))).map
    (fun t => (t.reg 0, t.reg 1, t.pc)) = some (1, 2, 3) := by decide
/-- V-ALU-6 -/
theorem test_add_reports_a_first : (after (step (mk [(0, 0xA0), (1, 0xC8), (2, 9)]))).map (fun t => t.fault) =
    some (some (.outOfRange .reg 200)) := by decide
/-- V-ALU-8 -/
theorem test_sub_wraps : (after (step (mk [(0, 0xA1), (1, 2), (2, 3)] #v[0, 0, 3, 200, 0, 0, 0, 0]))).map
    (fun t => (t.reg 2, t.reg 3)) = some (59, 200) := by decide
/-- V-ALU-14 -/
theorem test_sub_sets_no_flag : (after (step (mk [(0, 0xA1), (2, 1)] #v[5, 5, 0, 0, 0, 0, 0, 0]))).map
    (fun t => (t.reg 0, t.e)) = some (0, false) := by decide
/-- V-ALU-10 -/
theorem test_mul_wraps : (after (step (mk [(0, 0xA2), (2, 1)] #v[255, 255, 0, 0, 0, 0, 0, 0]))).map (fun t => t.reg 0) =
    some 1 := by decide
/-- V-ALU-10c -/
theorem test_mul_sp : (after (step (mk [(0, 0xA2), (1, 7), (2, 7)] #v[0, 0, 0, 0, 0, 0, 0, 20]))).map (fun t => t.sp) =
    some 144 := by decide
/-- V-ALU-11 -/
theorem test_cmp_sets : (after (step (mk [(0, 0xA7), (2, 2)] #v[3, 0, 3, 0, 0, 0, 0, 0]))).map
    (fun t => (t.e, t.regs, t.pc)) = some (true, #v[3, 0, 3, 0, 0, 0, 0, 0], 3) := by decide
/-- V-ALU-12 -/
theorem test_cmp_clears : (after (step (mkE [(0, 0xA7), (2, 2)] #v[2, 0, 3, 0, 0, 0, 0, 0]))).map
    (fun t => (t.e, t.fl)) = some (false, 0) := by decide

/-! ### The cycle's own errors, the load, the ALU block -/

/-- V-DEC-1 -/
theorem test_unknown_opcode : after (step (mk [(0, 0xA8), (2, 1)])) =
    some { mk [(0, 0xA8), (2, 1)] with fault := some (.unknownInstruction 0 0xA8) } := by decide
/-- V-DEC-8 -/
theorem test_operand_read_comes_first : (after (step (mkAt 254 [(254, 0xFF)]))).map (fun t => t.fault) =
    some (some (.outOfRange .mem 256)) := by decide
/-- V-DEC-9 -/
theorem test_unknown_opcode_at_253 : (after (step (mkAt 253 [(253, 0xFF)]))).map (fun t => t.fault) =
    some (some (.unknownInstruction 253 0xFF)) := by decide
/-- V-STK-3 -/
theorem test_push_bad_pointer : (after (step (mk [(0, 0x45)] #v[0, 0, 0, 0, 0, 0, 0, 16]))).map
    (fun t => (t.sp, t.byteAt 15, t.pc, t.fault)) = some (15, 0, 0, some (.outOfRange .reg 69)) := by decide
/-- V-CTL-2 -/
theorem test_call_bad_pointer : (after (step (mk [(0, 0x50), (2, 0x99)] #v[0, 0, 0, 0, 0, 0, 0, 5]))).map
    (fun t => (t.sp, t.byteAt 4, t.pc, t.fault)) = some (4, 0x99, 0, some (.outOfRange .reg 80)) := by decide
/-- V-DEC-12 -/
theorem test_load_too_large : (boot (List.replicate 257 1)).isFaulted = true ∧
    (boot (List.replicate 257 1)).fault = some (.programTooLarge 257) := by
  rw [boot, load, if_neg (by rw [List.length_replicate]; decide), List.length_replicate]
  exact ⟨rfl, rfl⟩
/-- V-DEC-13 -/
theorem test_load_full : (boot (List.replicate 256 0)).fault = none := by
  rw [boot, load, if_pos (by rw [List.length_replicate])]
  rfl
/-- The image of P8, first three bytes. -/
theorem test_load : boot [0x82, 0, 3] = mk [(0, 0x82), (2, 3)] := by decide
/-- A word placed for the next step to fetch. -/
theorem test_with_fetch_word :
    (after (step (State.reset.withFetchWord 24 0b00001000_00000111_10000010))).map (fun t => t.sp) = some 8 := by decide
/-- V-FN-1 to V-FN-3 -/
theorem test_alu_bitwise :
    (done (aluRequest .and 0 1) (mk [] #v[0xCC, 0xAA, 0, 0, 0, 0, 0, 0])).map (fun t => t.reg 0) = some 0x88 ∧
    (done (aluRequest .or 0 1) (mk [] #v[0xCC, 0xAA, 0, 0, 0, 0, 0, 0])).map (fun t => t.reg 0) = some 0xEE ∧
    (done (aluRequest .xor 0 1) (mk [] #v[0xCC, 0xAA, 0, 0, 0, 0, 0, 0])).map (fun t => t.reg 0) = some 0x66 := by
  decide
/-- V-FN-4, with a `b` above 7 -/
theorem test_alu_not : (done (aluRequest .not 0 200) (mk [] #v[0x0F, 0, 0, 0, 0, 0, 0, 0])).map (fun t => t.reg 0) =
    some 0xF0 := by decide
/-- V-FN-5, V-FN-6 -/
theorem test_alu_shifts :
    done (aluRequest .shl 0 1) (mk [] #v[0x81, 1, 0, 0, 0, 0, 0, 0]) = some (mk [] #v[0x81, 1, 0, 0, 0, 0, 0, 0]) ∧
    done (aluRequest .shr 0 1) (mk [] #v[0x81, 1, 0, 0, 0, 0, 0, 0]) = some (mk [] #v[0x81, 1, 0, 0, 0, 0, 0, 0]) := by
  decide
/-- V-FN-7, V-FN-7b -/
theorem test_alu_mod :
    (done (aluRequest .mod 0 1) (mk [] #v[17, 5, 0, 0, 0, 0, 0, 0])).map (fun t => t.reg 0) = some 2 ∧
    (done (aluRequest .mod 0 1) (mk [] #v[5, 7, 0, 0, 0, 0, 0, 0])).map (fun t => t.reg 0) = some 5 := by decide
/-- V-FN-8 -/
theorem test_alu_mod_zero : done (aluRequest .mod 0 1) (mk [] #v[17, 0, 0, 0, 0, 0, 0, 0]) =
    some { mk [] #v[17, 0, 0, 0, 0, 0, 0, 0] with out := [.diag .divisionByZero], running := false } := by decide

/-! ### Witnesses: the hypotheses of each obligation can be met

An obligation whose hypotheses are about a valid opcode map is witnessed at `otherOpc`. -/

/-- A valid map exists, and it is not the default one. -/
theorem witness_valid_map : otherOpc.Valid ∧ otherOpc .LDI = 0xA2 ∧ otherOpc .HLT = 0x21 where
  left := {
    distinct := by intro m n; cases m <;> cases n <;> decide
    count := by intro m c h; cases m <;> cases h <;> rfl
    sets := by intro m; cases m <;> rfl }
  right := by decide

theorem witness_EncodedInstructionDecodesBack :
    3 ≤ (encodeWith otherOpc (.call 255 255) ++ []).length ∧ 3 ≤ (encodeWith otherOpc .hlt ++ [9, 9]).length := by decide

theorem witness_DecodedBytesAreTheEncoding :
    decodeWith otherOpc 0xA2 7 255 = .ok (.ldi 7 255) ∧ decodeWith otherOpc 0x21 7 255 = .ok .hlt := ⟨rfl, rfl⟩

theorem witness_LookupMatchesTheWholeByte :
    otherOpc .LDI = 0xA2 ∧ ∀ m : Mnemonic, otherOpc m ≠ 0xFF := by
  refine ⟨rfl, fun m => ?_⟩
  cases m <;> decide

theorem witness_UnusedLatchesAreIgnored :
    (0x21#8 = otherOpc .NOP ∨ 0x21#8 = otherOpc .HLT ∨ 0x21#8 = otherOpc .RET) ∧
    (0x65#8 = otherOpc .PUSH ∨ 0x65#8 = otherOpc .POP ∨ 0x65#8 = otherOpc .PRN ∨ 0x65#8 = otherOpc .JMP ∨
      0x65#8 = otherOpc .JEQ ∨ 0x65#8 = otherOpc .JNE) := by decide

theorem witness_FirstOperandIsLeftSourceAndDestination :
    (7#8).toNat < 8 ∧ (0#8).toNat < 8 ∧ (mkAt 252 []).pc.toNat + 3 < 256 := by decide

/-- A cycle starting at 253, the last address from which one can run. -/
theorem witness_StepRunsTheDecodedInstruction :
    (mkAt 253 [(253, 0x21)]).running = true ∧ (mkAt 253 [(253, 0x21)]).fault = none ∧
      (mkAt 253 [(253, 0x21)]).pc.toNat + 2 < 256 ∧ decodeBytesWith otherOpc [0x21, 0, 0] = .ok .hlt :=
  ⟨rfl, rfl, by decide, rfl⟩

theorem witness_StoppedMachineNeverMoves :
    ({ State.reset with running := false } : State).running = false ∧
      ({ State.reset with fault := some (.outOfRange .mem 256) } : State).fault ≠ none := by decide

theorem witness_NothingExecutesFromTheTopTwoCells :
    (mkAt 254 []).running = true ∧ (mkAt 254 []).fault = none ∧ 254 ≤ (mkAt 254 []).pc.toNat ∧
      254 ≤ (mkAt 255 []).pc.toNat := by decide

theorem witness_UnknownOpcodeStopsTheMachine :
    (mkAt 253 [(253, 0xFF)]).running = true ∧ (mkAt 253 [(253, 0xFF)]).fault = none ∧
      (mkAt 253 [(253, 0xFF)]).pc.toNat + 2 < 256 ∧
      ∀ m : Mnemonic, otherOpc m ≠ (mkAt 253 [(253, 0xFF)]).byteAt (mkAt 253 [(253, 0xFF)]).pc.toNat := by
  refine ⟨rfl, rfl, by decide, fun m => ?_⟩
  cases m <;> decide

/-- A cycle that ends without an error, one with `sets_pc` = 1, and one that ends with an error. -/
theorem witness_PcAfterEachCycle :
    decodeWith otherOpc 0x21 0 0 = .ok .hlt ∧
    (after (stepWith otherOpc (mkAt 253 [(253, 0x21)]))).map (fun t => (t.fault, t.pc)) = some (none, 254) ∧
    (after (stepWith otherOpc (mkAt 253 [(253, 0x74)] #v[9, 0, 0, 0, 0, 0, 0, 0]))).map (fun t => (t.fault, t.pc)) =
      some (none, 9) ∧
    (after (stepWith otherOpc (mkAt 253 [(253, 0xA2)]))).map (fun t => (t.fault, t.pc)) =
      some (some (.outOfRange .pc 256), 253) := ⟨rfl, by decide, by decide, by decide⟩

theorem witness_FirstPushAfterResetGoesToTheTop :
    (mk [(0, 7)]).regs[7] = 0 ∧ 0 < (mk [] #v[0, 0, 0, 0, 0, 0, 0, 1]).regs[7].toNat ∧
      ((mk [(0, 7)]).byteAt (0#8).toNat).toNat < 8 ∧
      (after (exec (.push 0) (mk [(0, 7)]))).isSome = true ∧
      (after (exec (.call 0 9) (mk [(0, 7)]))).isSome = true := by decide

theorem witness_LoadPlacesTheImageFromZero :
    (List.replicate 256 (1 : Byte)).length ≤ 256 ∧ 255 < (List.replicate 256 (1 : Byte)).length ∧
      256 < (List.replicate 257 (1 : Byte)).length := by
  rw [List.length_replicate, List.length_replicate]; decide

/-- The invariant holds of a state that is not the state after reset; one step from it answers a next state. -/
theorem witness_EveryStepKeepsTheInvariant :
    (mkE [(0, 0xC5), (255, 7)] #v[0, 0, 0, 0, 0, 0, 0, 9]).Inv ∧
      (after (stepWith otherOpc (mkE [(0, 0xC5), (255, 7)]))).isSome = true := ⟨⟨by decide, by decide⟩, by decide⟩

theorem witness_LoadKeepsTheInvariant : (mkE [(255, 7)]).Inv := ⟨by decide, by decide⟩

theorem witness_StoredWordIsTheOneThatRuns :
    (mkAt 253 [(253, 0xFF)]).mem.wf = true ∧ (mkAt 253 [(253, 0xFF)]).running = true ∧
      (mkAt 253 [(253, 0xFF)]).fault = none ∧ (mkAt 253 [(253, 0xFF)]).pc.toNat + 2 < 256 ∧
      decodeTableWord 24 0x010750 = some (.call 7 1) := by decide

/-- A CMP, an instruction that is none run twice with different flags, and a run of two steps without CMP. -/
theorem witness_OnlyCmpWritesAndOnlyBranchesReadTheFlags :
    (after (exec .nop (mk []))).isSome = true ∧ (∀ a b, Instr.nop ≠ .cmp a b) ∧
      (after (exec (.cmp 7 0) (mk []))).isSome = true ∧
      (∀ a, Instr.nop ≠ .jeq a) ∧ (∀ a, Instr.nop ≠ .jne a) ∧
      (after (exec .nop { mk [] with fl := 1 })).isSome = true ∧
      (stepsWith otherOpc 2 (mk [(0, 0x20), (1, 0x20)])).isSome = true ∧
      (mk [(0, 0x20), (1, 0x20)]).byteAt (mk [(0, 0x20), (1, 0x20)]).pc.toNat ≠ otherOpc .CMP ∧
      (stepsWith otherOpc 1 (mk [(0, 0x20), (1, 0x20)])).map (fun t => t.byteAt t.pc.toNat) = some 0x20 :=
  ⟨by decide, by simp, by decide, by simp, by simp, by decide, by decide, by decide, by decide⟩

/-- A HLT, a zero divisor, a step of a stopped machine, a step that stops it, a step that latches an error. -/
theorem witness_OnlyTheHaltHandlerClearsRunning :
    (after (exec .hlt (mk []))).isSome = true ∧ (mk []).regs[(7#8).toNat]'(by decide) = 0 ∧
      (after (stepWith otherOpc { mk [] with running := false })).map (fun t => t.running) = some false ∧
      (after (stepWith otherOpc (mk [(0, 0x21)]))).map (fun t => t.running) = some false ∧
      (after (stepWith otherOpc (mk [(0, 0xFF)]))).map (fun t => t.fault.isSome) = some true := by decide

theorem witness_OutputIsAppendedOnlyByPrn :
    (after (stepWith otherOpc (mk [(0, 0x67), (1, 7)]))).map (fun t => t.out) = some [.prn 0] := by decide

theorem witness_OnlyPushAndCallWriteMemory :
    (after (stepWith otherOpc (mk [(0, 0x70), (1, 3), (2, 9)]))).map (fun t => (t.byteAt 255, t.fault)) =
      some (9, none) ∧ (mk [(0, 0x70), (1, 3), (2, 9)]).byteAt 255 = 0 := by decide

/-- Each of the four errors a step can latch: at 254 and 255, at 253, and by a bad index. -/
theorem witness_EveryLatchedFaultIsAccountedFor :
    (after (stepWith otherOpc (mkAt 254 []))).map (fun t => t.fault) = some (some (.outOfRange .mem 256)) ∧
    (after (stepWith otherOpc (mkAt 255 []))).map (fun t => t.fault) = some (some (.outOfRange .mem 256)) ∧
    (after (stepWith otherOpc (mkAt 253 []))).map (fun t => t.fault) = some (some (.unknownInstruction 253 0)) ∧
    (after (stepWith otherOpc (mkAt 253 [(253, 0x67), (254, 8)]))).map (fun t => t.fault) =
      some (some (.outOfRange .reg 8)) ∧
    (after (stepWith otherOpc (mkAt 253 [(253, 0xA2)]))).map (fun t => t.fault) = some (some (.outOfRange .pc 256)) := by
  decide

/-- Of the statements whose operands are two valid indices: the bounds are reached. -/
theorem witness_AluArithmeticWrapsModulo256 : (7#8).toNat < 8 ∧ (0#8).toNat < 8 := by decide
theorem witness_AluBitwiseFunctions : (0#8).toNat < 8 ∧ (7#8).toNat < 8 := by decide
theorem witness_AluRemainder : (6#8).toNat < 8 ∧ (7#8).toNat < 8 ∧
    (mk [] #v[0, 0, 0, 0, 0, 0, 200, 7]).regs[(7#8).toNat]'(by decide) ≠ 0 := by decide
theorem witness_ModByZeroHaltsGracefully : (6#8).toNat < 8 ∧ (7#8).toNat < 8 ∧
    (mk [] #v[0, 0, 0, 0, 0, 0, 200, 0]).regs[(7#8).toNat]'(by decide) = 0 ∧ (mk []).fault = none ∧
    (after (stepWith otherOpc (mk []))).isSome = true := by decide
theorem witness_AluIndexErrorsChangeNothing :
    AluFn.add ≠ .shl ∧ AluFn.add ≠ .shr ∧ AluFn.add ≠ .not ∧ 8 ≤ (8#8).toNat ∧ (7#8).toNat < 8 := by decide
theorem witness_SameRegisterAsBothOperands : (7#8).toNat < 8 ∧
    (mk [] #v[0, 0, 0, 0, 0, 0, 0, 7]).regs[(7#8).toNat]'(by decide) ≠ 0 := by decide
theorem witness_UnknownOperationNameRaises :
    "add" ∉ ["ADD", "SUB", "MUL", "AND", "OR", "XOR", "NOT", "SHL", "SHR", "MOD", "CMP"] := by decide

theorem witness_ArithmeticInstructionResult :
    (7#8).toNat < 8 ∧ (0#8).toNat < 8 ∧ (mkAt 252 []).pc.toNat + 3 < 256 := by decide
theorem witness_CompareInstructionResult :
    (0#8).toNat < 8 ∧ (7#8).toNat < 8 ∧ (mkAt 252 []).pc.toNat + 3 < 256 := by decide
theorem witness_LoadImmediateResult : (7#8).toNat < 8 ∧ (mkAt 252 []).pc.toNat + 3 < 256 := by decide
theorem witness_PrintResult : (7#8).toNat < 8 ∧ (mkAt 253 []).pc.toNat + 2 < 256 := by decide
/-- A pointer cell naming register 7 and one naming register 0; the address 253. -/
theorem witness_PushResult :
    7 = ((mkAt 253 [(255, 7)]).byteAt (255#8).toNat).toNat ∧ 0 = ((mkAt 253 [(255, 7)]).byteAt (0#8).toNat).toNat ∧
      (mkAt 253 [(255, 7)]).pc.toNat + 2 < 256 := by decide
theorem witness_PopResult :
    7 = ((mkAt 253 [(255, 7)]).byteAt (255#8).toNat).toNat ∧ 0 = ((mkAt 253 [(255, 7)]).byteAt (0#8).toNat).toNat ∧
      (mkAt 253 [(255, 7)]).pc.toNat + 2 < 256 := by decide
/-- The pointer cell is the stack slot itself. -/
theorem witness_CallResult :
    7 = (((mk [(255, 6)]).mem.write ((mk [(255, 6)]).regs[7] - 1).toNat 7).read (255#8).toNat).toNat := by decide
theorem witness_ReturnResult : otherOpc .RET = 0x31 := by decide
theorem witness_JumpResult : (7#8).toNat < 8 := by decide
theorem witness_BranchResult : (7#8).toNat < 8 ∧ (mkE []).e = true ∧ (mk []).e = false ∧
    (mkAt 253 []).pc.toNat + 2 < 256 ∧ (mkAt 253 []).e = false ∧
    ({ mkAt 253 [] with fl := 1 } : State).e = true := by decide
theorem witness_HaltResult : (mkAt 254 []).pc.toNat + 1 < 256 ∧ (mkAt 254 []).fault = none := by decide
theorem witness_NopResult : (mkAt 254 []).pc.toNat + 1 < 256 := by decide
theorem witness_WellFormedInstructionRunsWithoutError :
    (Instr.add 7 7).wf = true ∧ (Instr.push 255).wf = true ∧
      (mkAt 252 [(255, 7)]).pointerIndexOf (.push 255) = some 7 ∧ (mkAt 252 [(255, 7)]).pointerIndexOf (.add 7 7) = none ∧
      (mkAt 252 [(255, 7)]).pc.toNat + 3 < 256 := by decide

theorem witness_BadRegisterOperandTraps :
    8 ≤ (8#8).toNat ∧ (7#8).toNat < 8 ∧ (mkE []).e = true ∧ (mk []).e = false ∧
      Instr.jmp 8 ∈ [Instr.add 8 0, .sub 8 0, .mul 8 0, .cmp 8 0, .ldi 8 0, .prn 8, .jmp 8] := by decide
theorem witness_BadPointerCellTraps :
    8 ≤ ((mk [(255, 8)]).byteAt (255#8).toNat).toNat ∧
      8 ≤ (((mk []).mem.write ((mk []).regs[7] - 1).toNat 8).read (255#8).toNat).toNat := by decide
theorem witness_AdvancePastTheTopTraps :
    (7#8).toNat < 8 ∧ (0#8).toNat < 8 ∧ (mkAt 253 []).pc.toNat = 253 := by decide

theorem witness_FrameOfRegisterWriters :
    Instr.ldi 7 1 ∈ [Instr.add 7 1, .sub 7 1, .mul 7 1, .ldi 7 1] ∧
      (after (exec (.ldi 7 1) (mk []))).map (fun t => (t.fault, t.sp)) = some (none, 1) ∧
      (6 : Fin 8).val ≠ (7#8).toNat := by decide
theorem witness_FrameOfRegisterReaders :
    Instr.jne 7 ∈ [Instr.nop, .hlt, .prn 7, .cmp 7 0, .jmp 7, .jeq 7, .jne 7] ∧
      (after (exec (.jne 7) (mk []))).map (fun t => t.fault) = some none ∧ Instr.jne 7 ≠ .cmp 7 0 ∧
      Instr.jne 7 ≠ .hlt ∧ Instr.jne 7 ≠ .prn 7 := by decide
theorem witness_FrameOfStackReaders :
    (after (exec (.pop 0) (mk [(0, 6)]))).map (fun t => t.fault) = some none ∧
      (after (exec .ret (mk [(0, 6)]))).map (fun t => t.pc) = some 6 ∧
      (5 : Fin 8).val ≠ (mk [(0, 6)]).pointed 0 ∧ (5 : Fin 8).val ≠ 7 := by decide
theorem witness_FrameOfStackWriters :
    Instr.push 0 ∈ [Instr.push 0, .call 0 8] ∧ (after (exec (.push 0) (mk [(0, 8)]))).isSome = true ∧
      8 ≤ (mk [(0, 8)]).pointed 0 ∧ (after (exec (.push 0) (mk [(0, 6)]))).map (fun t => t.fault) = some none ∧
      (after (exec (.call 0 8) (mk [(0, 7)]))).map (fun t => t.fault) = some none ∧
      254 ≠ (mk [(0, 8)]).pushSlot.toNat := by decide

theorem witness_StackIsFullDescendingAndShared :
    (mkAt 253 [(254, 7)]).mem.wf = true ∧ 7 = ((mkAt 253 [(254, 7)]).byteAt (254#8).toNat).toNat ∧
      (mkAt 253 [(254, 7)]).pc.toNat + 2 < 256 ∧
      (((mk [(0, 7)]).mem.write ((mk [(0, 7)]).regs[7] - 1).toNat 9).read (0#8).toNat).toNat < 8 ∧
      (after (exec (.call 3 9) (mk [(2, 6), (3, 1)]))).map (fun t => ((t.byteAt 2).toNat, t.pc.toNat)) = some (6, 0) ∧
      (after (exec (.call 3 9) (mk [(2, 7), (3, 1)]))).map (fun t => (t.byteAt 2).toNat) = some 7 := by decide

/-- The code `PUSH [p]; POP [p]` at 251 with `p` = 0. -/
theorem witness_PushThenPopRestores :
    (mkAt 251 [(0, 7), (251, 0x65), (253, 0x66)]).mem.wf = true ∧
      (mkAt 251 [(0, 7), (251, 0x65), (253, 0x66)]).pc.toNat + 4 < 256 ∧
      (mkAt 251 [(0, 7), (251, 0x65), (253, 0x66)]).byteAt 251 = otherOpc .PUSH ∧
      (mkAt 251 [(0, 7), (251, 0x65), (253, 0x66)]).byteAt 252 = 0 ∧
      (mkAt 251 [(0, 7), (251, 0x65), (253, 0x66)]).byteAt 253 = otherOpc .POP ∧
      (mkAt 251 [(0, 7), (251, 0x65), (253, 0x66)]).byteAt 254 = 0 ∧
      7 = ((mkAt 251 [(0, 7), (251, 0x65), (253, 0x66)]).byteAt (0#8).toNat).toNat ∧
      0#8 ≠ (mkAt 251 [(0, 7), (251, 0x65), (253, 0x66)]).regs[7] - 1 ∧
      ((mkAt 251 [(0, 7), (251, 0x65), (253, 0x66)]).regs[7] - 1).toNat = 255 := by decide

/-- And a RET state that meets the inner hypotheses: the one CALL leaves. -/
theorem witness_ReturnResumesAtThePushedByte :
    (mk [(0, 7)]).mem.wf = true ∧ 7 = ((mk [(0, 7)]).byteAt (0#8).toNat).toNat ∧ 0#8 ≠ (mk [(0, 7)]).regs[7] - 1 ∧
      (after (exec (.call 0 9) (mk [(0, 7)]))).map (fun t => (t.regs[7], t.byteAt 255)) = some (255, 9) := by decide

end Sys2Proof.Tests
end

/-! ## What a part of a cycle keeps

A part of a cycle ends in a state whether it returns or raises. `Exec.Keeps f c` says that the reading `f` of the state
is the same there as at the start; it is closed under sequencing, so a handler keeps what its primitives keep. -/

section
namespace Sys2Proof.Machine

/-- The state in which a part of a cycle ends, by returning or at the `raise`. -/
def Exec.endState {α : Type} (c : Exec α) (s : State) : State :=
  match c.run s with
  | .ok _ t => t
  | .error _ t => t

theorem Exec.endState_of_ok {α : Type} {c : Exec α} {s t : State} {v : α} (h : c.run s = .ok v t) :
    c.endState s = t := by
  rw [endState, h]

theorem Exec.endState_of_error {α : Type} {c : Exec α} {s t : State} {k : Fault} (h : c.run s = .error k t) :
    c.endState s = t := by
  rw [endState, h]

/-- `c` leaves the reading `f` of the state as it found it, whether it returns or raises. -/
def Exec.Keeps {α γ : Type} (f : State → γ) (c : Exec α) : Prop := ∀ s, f (c.endState s) = f s

/-! ### What a reading of the state does not depend on

One predicate for each component of the state: the reading `f` is the same whatever value the component has. -/

section
variable {γ : Type} (f : State → γ)

def IgnoresRegs : Prop := ∀ s r, f { s with regs := r } = f s
def IgnoresPc : Prop := ∀ s p, f { s with pc := p } = f s
def IgnoresFl : Prop := ∀ s l, f { s with fl := l } = f s
def IgnoresMem : Prop := ∀ s m, f { s with mem := m } = f s
def IgnoresFault : Prop := ∀ s k, f { s with fault := k } = f s
def IgnoresRunning : Prop := ∀ s b, f { s with running := b } = f s
def IgnoresOut : Prop := ∀ s o, f { s with out := o } = f s

end

section
variable {α β γ : Type} {f : State → γ}

/-! ### Sequencing -/

theorem Exec.Keeps.pure (v : α) : Exec.Keeps f (pure v) := fun _ => rfl

theorem Exec.Keeps.bind {x : Exec α} {g : α → Exec β} (hx : x.Keeps f) (hg : ∀ v, (g v).Keeps f) :
    (x >>= g).Keeps f := by
  intro s
  have hs := hx s
  cases h : x.run s with
  | ok v t =>
    rw [endState_of_ok h] at hs
    have hend : (x >>= g).endState s = (g v).endState t := by rw [endState, bind_ok h, endState]
    rw [hend, hg v t, hs]
  | error k t =>
    rw [endState_of_error h] at hs
    rw [endState_of_error (bind_error h), hs]

/-- A cycle keeps what its statements keep, if taking a fatal error keeps it too. -/
theorem runCycle_keeps {c : Exec Unit} {s t : State} (hf : IgnoresFault f) (hc : c.Keeps f)
    (h : runCycle c s = .next t) : f t = f s := by
  rcases runCycle_cases c s with ⟨u, hu, hnext⟩ | ⟨k, u, hu, hnext⟩
  · obtain rfl : u = t := by simpa [hnext] using h
    rw [← hc s, Exec.endState_of_ok hu]
  · obtain rfl : u.latch k = t := by simpa [hnext] using h
    rw [← hc s, Exec.endState_of_error hu]
    exact hf u _

/-! ### Reading changes nothing -/

theorem keeps_readReg {i : Nat} : (readReg i).Keeps f := by
  intro s
  by_cases h : i < 8
  · rw [Exec.endState_of_ok (readReg_valid h s)]
  · rw [Exec.endState_of_error (readReg_invalid (Nat.le_of_not_lt h) s)]

theorem keeps_readOperand {a : Byte} : (readOperand a).Keeps f := keeps_readReg

theorem keeps_memRead {a : Nat} : (memRead a).Keeps f := by
  intro s
  by_cases h : a < 256
  · rw [Exec.endState_of_ok (memRead_inside h s)]
  · rw [Exec.endState_of_error (memRead_outside (Nat.le_of_not_lt h) s)]

theorem keeps_pointerIndex {a : Byte} : (pointerIndex a).Keeps f := keeps_memRead.bind fun r => .pure r.toNat

theorem keeps_readSp : readSp.Keeps f := fun _ => rfl
theorem keeps_readPc : readPc.Keeps f := fun _ => rfl
theorem keeps_readE : readE.Keeps f := fun _ => rfl
theorem keeps_readPushSlot : readPushSlot.Keeps f := fun _ => rfl
theorem keeps_readPopNext : readPopNext.Keeps f := fun _ => rfl

/-! ### Writing changes only readings of what is written -/

theorem keeps_writeReg (hf : IgnoresRegs f) {i : Nat} {v : Byte} : (writeReg i v).Keeps f := by
  intro s
  by_cases h : i < 8
  · rw [Exec.endState_of_ok (writeReg_valid h v s)]
    exact hf s _
  · rw [Exec.endState_of_error (writeReg_invalid (Nat.le_of_not_lt h) v s)]

theorem keeps_writeOperand (hf : IgnoresRegs f) {a v : Byte} : (writeOperand a v).Keeps f := keeps_writeReg hf

theorem keeps_writeSp (hf : IgnoresRegs f) {v : Byte} : (writeSp v).Keeps f := fun s => hf s _

theorem keeps_memWrite_byte (hf : IgnoresMem f) {a v : Byte} : (memWrite a.toNat v).Keeps f := by
  intro s
  rw [Exec.endState_of_ok (memWrite_byte a v s)]
  exact hf s _

theorem keeps_writePc (hf : IgnoresPc f) {n : Nat} : (writePc n).Keeps f := by
  intro s
  by_cases h : n < 256
  · rw [Exec.endState_of_ok (writePc_inside h s), hf]
  · rw [Exec.endState_of_error (writePc_outside (Nat.le_of_not_lt h) s)]

theorem keeps_writeE (hf : IgnoresFl f) {v : Bool} : (writeE v).Keeps f := fun s => hf s _
theorem keeps_emit (hf : IgnoresOut f) {e : Event} : (emit e).Keeps f := fun s => hf s _
theorem keeps_halt (hf : IgnoresRunning f) : halt.Keeps f := fun s => hf s _

theorem keeps_advance (hf : IgnoresPc f) {op : Byte} : (advance op).Keeps f := by
  intro s
  rcases advance_cases op s with ⟨p, h⟩ | ⟨n, -, -, h⟩
  · rw [Exec.endState_of_ok h, hf]
  · rw [Exec.endState_of_error h]

theorem keeps_branch (hf : IgnoresPc f) {taken : Bool} {a : Byte} : (branch taken a).Keeps f := by
  cases taken with
  | true => exact keeps_readOperand.bind fun _ => keeps_writePc hf
  | false => exact keeps_readPc.bind fun _ => keeps_writePc hf

theorem keeps_aluBinary (hf : IgnoresRegs f) {op : Byte → Byte → Byte} {a b : Byte} : (aluBinary op a b).Keeps f :=
  keeps_readOperand.bind fun _ => keeps_readOperand.bind fun _ => keeps_writeOperand hf

theorem keeps_aluCmp (hf : IgnoresFl f) {a b : Byte} : (aluCmp a b).Keeps f :=
  keeps_readOperand.bind fun _ => keeps_readOperand.bind fun _ => keeps_writeE hf

end

end Sys2Proof.Machine
end

/-! ## What each instruction writes -/

section
namespace Sys2Proof

/-- The instructions whose handler writes a register, `SP` included. -/
def Instr.writesRegs : Instr → Bool
  | .ret | .push _ | .pop _ | .call _ _ | .ldi _ _ | .add _ _ | .sub _ _ | .mul _ _ => true
  | .nop | .hlt | .prn _ | .jmp _ | .jeq _ | .jne _ | .cmp _ _ => false

/-- The instructions whose handler writes memory (20_memory.md R51). -/
def Instr.writesMem (i : Instr) : Bool := i.mnemonic == .PUSH || i.mnemonic == .CALL

/-- The instruction whose handler writes `FL` (10_state.md R29). -/
def Instr.writesFl (i : Instr) : Bool := i.mnemonic == .CMP

/-- The instruction whose handler appends to the output stream (10_state.md R37). -/
def Instr.writesOut (i : Instr) : Bool := i.mnemonic == .PRN

/-- The instruction whose handler writes the running flag (10_state.md R31). -/
def Instr.writesRunning (i : Instr) : Bool := i.mnemonic == .HLT

namespace Machine

/-- The reading `f` of the state depends on nothing that a cycle of `i` can write. -/
structure Unwritten {γ : Type} (f : State → γ) (i : Instr) : Prop where
  pc : IgnoresPc f
  fault : IgnoresFault f
  regs : i.writesRegs = true → IgnoresRegs f
  mem : i.writesMem = true → IgnoresMem f
  fl : i.writesFl = true → IgnoresFl f
  out : i.writesOut = true → IgnoresOut f
  running : i.writesRunning = true → IgnoresRunning f

/-- The frame of every instruction: whatever depends on nothing it writes is the same after its cycle. -/
theorem exec_keeps {γ : Type} {f : State → γ} {i : Instr} {s t : State} (hf : Unwritten f i)
    (h : exec i s = .next t) : f t = f s := by
  have keeps {c : Exec Unit} (hc : c.Keeps f) (h : runCycle c s = .next t) : f t = f s := runCycle_keeps hf.fault hc h
  have hadv {op : Byte} : (advance op).Keeps f := keeps_advance hf.pc
  have hpc {n : Nat} : (writePc n).Keeps f := keeps_writePc hf.pc
  cases i with
  | nop => exact keeps hadv h
  | hlt => exact keeps ((keeps_halt (hf.running rfl)).bind fun _ => hadv) h
  | ret =>
    exact keeps (keeps_readSp.bind fun _ => keeps_memRead.bind fun _ => hpc.bind fun _ =>
      keeps_readPopNext.bind fun _ => (keeps_writeSp (hf.regs rfl)).bind fun _ => hadv) h
  | push a =>
    exact keeps (keeps_pointerIndex.bind fun _ => keeps_readPushSlot.bind fun _ =>
      (keeps_writeSp (hf.regs rfl)).bind fun _ => keeps_readReg.bind fun _ =>
      (keeps_memWrite_byte (hf.mem rfl)).bind fun _ => hadv) h
  | pop a =>
    exact keeps (keeps_pointerIndex.bind fun _ => keeps_readSp.bind fun _ => keeps_memRead.bind fun _ =>
      (keeps_writeReg (hf.regs rfl)).bind fun _ => keeps_readPopNext.bind fun _ =>
      (keeps_writeSp (hf.regs rfl)).bind fun _ => hadv) h
  | prn a => exact keeps (keeps_readOperand.bind fun _ => (keeps_emit (hf.out rfl)).bind fun _ => hadv) h
  | call a b =>
    exact keeps (keeps_readPushSlot.bind fun _ => (keeps_memWrite_byte (hf.mem rfl)).bind fun _ =>
      (keeps_writeSp (hf.regs rfl)).bind fun _ => keeps_pointerIndex.bind fun _ => keeps_readReg.bind fun _ =>
      hpc.bind fun _ => hadv) h
  | jmp a => exact keeps (keeps_readOperand.bind fun _ => hpc.bind fun _ => hadv) h
  | jeq a => exact keeps (keeps_readE.bind fun _ => (keeps_branch hf.pc).bind fun _ => hadv) h
  | jne a => exact keeps (keeps_readE.bind fun _ => (keeps_branch hf.pc).bind fun _ => hadv) h
  | ldi a b => exact keeps ((keeps_writeOperand (hf.regs rfl)).bind fun _ => hadv) h
  | add a b => exact keeps ((keeps_aluBinary (hf.regs rfl)).bind fun _ => hadv) h
  | sub a b => exact keeps ((keeps_aluBinary (hf.regs rfl)).bind fun _ => hadv) h
  | mul a b => exact keeps ((keeps_aluBinary (hf.regs rfl)).bind fun _ => hadv) h
  | cmp a b => exact keeps ((keeps_aluCmp (hf.fl rfl)).bind fun _ => hadv) h

end Machine

end Sys2Proof
end

/-! ## The push that PUSH and CALL share (43_stack.md R170; 44_control.md R180) -/

section
namespace Sys2Proof.Machine

/-- `s` after a push of `v`: `SP` one lower modulo 256, and `v` in the cell it then names. -/
def State.pushed (s : State) (v : Byte) : State :=
  (s.setByte s.pushSlot.toNat v).setReg Config.spIndex s.pushSlot

theorem State.pushed_sp (s : State) (v : Byte) : (s.pushed v).regs[7] = s.regs[7] - 1 :=
  State.setReg_sp _ s.pushSlot

theorem State.pushed_mem (s : State) (v : Byte) : (s.pushed v).mem = s.mem.write (s.regs[7] - 1).toNat v := rfl

/-- The stack as one reading of the state: its pointer, and the memory that holds it. -/
def State.stack (s : State) : Byte × Memory := (s.regs[7], s.mem)

theorem stack_ignoresPc : IgnoresPc State.stack := fun _ _ => rfl
theorem stack_ignoresFault : IgnoresFault State.stack := fun _ _ => rfl

theorem State.pushed_stack (s : State) (v : Byte) :
    (s.pushed v).stack = (s.regs[7] - 1, s.mem.write (s.regs[7] - 1).toNat v) :=
  Prod.ext (s.pushed_sp v) (s.pushed_mem v)

theorem runCycle_congr {c d : Exec Unit} {s t : State} (h : c.run s = d.run t) : runCycle c s = runCycle d t := by
  rw [runCycle, h, runCycle]

/-- PUSH of a register that exists pushes its value, read after the decrement, and advances. -/
theorem exec_push_of_pointed_lt {a : Byte} {s : State} (h : s.pointed a < 8) :
    exec (.push a) s = runCycle (advance (defaultOpc .PUSH))
      (s.pushed ((s.setReg Config.spIndex s.pushSlot).reg ⟨s.pointed a, h⟩)) := by
  apply runCycle_congr
  rw [Exec.bind_ok (pointerIndex_run a s), Exec.bind_ok (readPushSlot_run s), Exec.bind_ok (writeSp_run _ s),
    Exec.bind_ok (readReg_valid h _), Exec.bind_ok (memWrite_byte _ _ _)]
  rfl

/-- CALL pushes its operand `b`, then jumps through the pointer cell. -/
theorem exec_call_eq (a b : Byte) (s : State) :
    exec (.call a b) s = runCycle (do
      let r ← pointerIndex a
      let target ← readReg r
      writePc target.toNat
      advance (defaultOpc .CALL)) (s.pushed b) := by
  apply runCycle_congr
  rw [Exec.bind_ok (readPushSlot_run s), Exec.bind_ok (memWrite_byte _ _ s), Exec.bind_ok (writeSp_run _ _)]
  rfl

theorem exec_push_stack {a : Byte} {s t : State} (hr : s.pointed a < 8) (h : exec (.push a) s = .next t) :
    ∃ v, t.stack = (s.pushed v).stack := by
  rw [exec_push_of_pointed_lt hr] at h
  exact ⟨_, runCycle_keeps stack_ignoresFault (keeps_advance stack_ignoresPc) h⟩

theorem exec_call_stack {a b : Byte} {s t : State} (h : exec (.call a b) s = .next t) :
    t.stack = (s.pushed b).stack := by
  rw [exec_call_eq] at h
  refine runCycle_keeps stack_ignoresFault ?_ h
  exact keeps_pointerIndex.bind fun _ => keeps_readReg.bind fun _ =>
    (keeps_writePc stack_ignoresPc).bind fun _ => keeps_advance stack_ignoresPc

/-- Settles O17: PUSH and CALL both leave the stack of `State.pushed`, since nothing they do after the push touches
`SP` or memory. -/
theorem firstPushAfterResetGoesToTheTop : Obligations.FirstPushAfterResetGoesToTheTop := by
  refine ⟨rfl, fun s => ⟨?_, ?_, ?_, ?_⟩⟩
  · intro h
    rw [h]
    rfl
  · intro h
    exact BitVec.toNat_sub_of_le (x := s.regs[7]) (y := 1) h
  · intro a t hr h
    obtain ⟨v, hv⟩ := exec_push_stack hr h
    obtain ⟨hsp, hmem⟩ := Prod.mk.inj (hv.trans (s.pushed_stack v))
    exact ⟨hsp, v, hmem⟩
  · intro a b t h
    exact Prod.mk.inj ((exec_call_stack h).trans (s.pushed_stack b))

end Sys2Proof.Machine
end

/-! ## The running flag (10_state.md R31) -/

section
namespace Sys2Proof.Machine

theorem running_ignoresPc : IgnoresPc State.running := fun _ _ => rfl
theorem running_ignoresFault : IgnoresFault State.running := fun _ _ => rfl

/-- Of the 15 handlers only HLT's writes `running`. -/
theorem exec_keeps_running {i : Instr} {s t : State} (hi : i.mnemonic ≠ .HLT) (h : exec i s = .next t) :
    t.running = s.running := by
  have hf : Unwritten State.running i :=
    { pc := running_ignoresPc
      fault := running_ignoresFault
      regs := fun _ _ _ => rfl
      mem := fun _ _ _ => rfl
      fl := fun _ _ _ => rfl
      out := fun _ _ _ => rfl
      running := fun hw => absurd (beq_iff_eq.mp hw) hi }
  exact exec_keeps hf h

/-- HLT clears `running` and then only advances. -/
theorem exec_hlt_eq (s : State) :
    exec .hlt s = runCycle (advance (defaultOpc .HLT)) { s with running := false } :=
  runCycle_congr (Exec.bind_ok (halt_run s))

theorem exec_hlt_clears_running {s t : State} (h : exec .hlt s = .next t) : t.running = false := by
  rw [exec_hlt_eq] at h
  exact runCycle_keeps running_ignoresFault (keeps_advance running_ignoresPc) h

/-- HLT has operand count 0, so its advance can raise at address 255 only, where no cycle decodes. -/
theorem exec_hlt_keeps_fault {s t : State} (hpc : s.pc.toNat < 254) (h : exec .hlt s = .next t) :
    t.fault = s.fault := by
  have hlt : s.pc.toNat + operandCount (defaultOpc .HLT) + 1 < 256 := by
    rw [show operandCount (defaultOpc .HLT) = 0 from rfl]
    omega
  have hrun := (advance_eq (op := defaultOpc .HLT) rfl { s with running := false }).trans (writePc_inside hlt _)
  rw [exec_hlt_eq, runCycle_ok hrun] at h
  cases h
  rfl

/-- A step keeps `running`, or it is HLT's: then `running` is cleared and no fault is latched. -/
theorem stepWith_running_cases {opc : OpcodeMap} {s t : State} (h : stepWith opc s = .next t) :
    t.running = s.running ∨
      s.byteAt s.pc.toNat = opc .HLT ∧ t.running = false ∧ s.fault = none ∧ t.fault = none := by
  rcases stepWith_cases opc s with ⟨-, hs⟩ | ⟨-, hfault, ⟨-, hs⟩ | ⟨-, hs⟩ | ⟨hpc, m, hm, hs⟩⟩ <;> rw [hs] at h
  · cases h
    exact .inl rfl
  · cases h
    exact .inl rfl
  · cases h
    exact .inl rfl
  · by_cases hhlt : m = .HLT
    · subst hhlt
      exact .inr ⟨hm.symm, exec_hlt_clears_running h, hfault, (exec_hlt_keeps_fault hpc h).trans hfault⟩
    · exact .inl (exec_keeps_running (by rwa [m.withLatches_mnemonic]) h)

/-- The ALU's MOD on a zero divisor appends its diagnostic and halts (41_alu.md R145). -/
theorem aluRequest_mod_zero {a b : Byte} {s : State} (ha : a.toNat < 8) (hb : b.toNat < 8)
    (h : s.reg ⟨b.toNat, hb⟩ = 0) :
    (aluRequest .mod a b).run s =
      .ok () { s with out := s.out ++ [.diag .divisionByZero], running := false } := by
  change (aluMod a b).run s = _
  rw [aluMod, Exec.bind_ok (readOperand_valid ha s), Exec.bind_ok (readOperand_valid hb s), if_pos h,
    Exec.bind_ok (emit_run _ s), halt_run]

/-- Settles O24: the whole-machine clauses follow from `stepWith_running_cases`. -/
theorem onlyTheHaltHandlerClearsRunning : Obligations.OnlyTheHaltHandlerClearsRunning := by
  refine ⟨rfl, fun _ _ => exec_hlt_clears_running, ?_, ?_⟩
  · intro a b s ha hb hzero
    exact ⟨_, aluRequest_mod_zero ha hb hzero, rfl⟩
  · intro opc s t _ h
    rcases stepWith_running_cases h with hrun | ⟨hbyte, hrun, hs, ht⟩
    · refine ⟨hrun.trans, ?_, fun _ => hrun⟩
      intro hs ht
      simp [hs, ht] at hrun
    · exact ⟨fun _ => hrun, fun _ _ => ⟨hbyte, ht⟩, fun hne => absurd (ht.trans hs.symm) hne⟩

end Sys2Proof.Machine
end

/-! ## The stopped machine (40_cycle_dispatch.md R111) -/

section
namespace Sys2Proof.Machine

theorem State.enabled_eq_false_iff (s : State) : s.enabled = false ↔ s.running = false ∨ s.fault ≠ none := by
  rw [← Bool.not_eq_true, s.enabled_iff, not_and_or, Bool.not_eq_true]

theorem stepsWith_succ_of_next {opc : OpcodeMap} {s t : State} (h : stepWith opc s = .next t) (k : Nat) :
    stepsWith opc (k + 1) s = stepsWith opc k t := by
  rw [stepsWith, h]

/-- A state that steps to itself stays for any number of steps. -/
theorem stepsWith_of_step_fixed {opc : OpcodeMap} {s : State} (h : stepWith opc s = .next s) (k : Nat) :
    stepsWith opc k s = some s := by
  induction k with
  | zero => rfl
  | succ k ih => exact (stepsWith_succ_of_next h k).trans ih

/-- Settles O11: no cycle is enabled, so the state steps to itself. -/
theorem stoppedMachineNeverMoves : Obligations.StoppedMachineNeverMoves := by
  intro opc s hstopped
  have hstep : stepWith opc s = .next s := stepWith_idle opc (s.enabled_eq_false_iff.mpr hstopped)
  exact ⟨hstep, stepsWith_of_step_fixed hstep⟩

end Sys2Proof.Machine
end

/-! ## The ALU's modulo-256 arithmetic (41_alu.md R135, R136, R137) -/

section
namespace Sys2Proof.Machine

theorem byte_add_eq_ofNat (p q : Byte) : p + q = BitVec.ofNat 8 ((p.toNat + q.toNat) % 256) :=
  BitVec.eq_of_toNat_eq (by simp)

/-- On a borrow the difference of the numbers is taken after adding 256 (41_alu.md R136). -/
theorem byte_sub_eq_ofNat (p q : Byte) :
    p - q = BitVec.ofNat 8 (if p.toNat < q.toNat then p.toNat + 256 - q.toNat else p.toNat - q.toNat) := by
  apply BitVec.eq_of_toNat_eq
  rw [BitVec.toNat_sub, BitVec.toNat_ofNat]
  split <;> omega

theorem byte_mul_eq_ofNat (p q : Byte) : p * q = BitVec.ofNat 8 ((p.toNat * q.toNat) % 256) :=
  BitVec.eq_of_toNat_eq (by simp)

/-- Settles O28: `aluBinary_valid` gives the whole next state, and the byte operations are the numbers' modulo 256. -/
theorem aluArithmeticWrapsModulo256 : Obligations.AluArithmeticWrapsModulo256 := by
  intro a b s ha hb
  rw [← byte_add_eq_ofNat, ← byte_sub_eq_ofNat, ← byte_mul_eq_ofNat]
  exact ⟨aluBinary_valid (· + ·) ha hb s, aluBinary_valid (· - ·) ha hb s, aluBinary_valid (· * ·) ha hb s⟩

end Sys2Proof.Machine
end

/-! ## The one stack of PUSH and CALL, POP and RET (43_stack.md R172) -/

section
namespace Sys2Proof.Machine

/-- The byte on top of the stack: the one in the cell that `SP` names. -/
def State.top (s : State) : Byte := s.byteAt s.sp.toNat

/-- `s` after a pop into `x[i]`: `SP` is read again after the write of `x[i]` (43_stack.md R171, corner case 3). -/
def State.popped (s : State) (i : Fin 8) : State :=
  (s.setReg i s.top).setReg Config.spIndex (s.setReg i s.top).popNext

/-! ### Pushing, then reading or popping the top -/

theorem State.pushed_top {s : State} (h : s.mem.wf = true) (v : Byte) : (s.pushed v).top = v := by
  have hsp : (s.pushed v).sp = s.pushSlot := s.pushed_sp v
  rw [State.top, hsp]
  exact Memory.read_write_same h _ v

/-- The increment of POP and RET undoes the decrement of PUSH and CALL, wrapped or not (20_memory.md R53). -/
theorem State.pushed_popNext (s : State) (v : Byte) : (s.pushed v).popNext = s.sp := by
  have hsp : (s.pushed v).sp = s.pushSlot := s.pushed_sp v
  rw [State.popNext, hsp]
  exact BitVec.sub_add_cancel s.sp 1

/-- Popping into `x[7]` increments the byte just popped, not the old `SP` (43_stack.md R171, corner case 3). -/
theorem State.popped_sp (s : State) (i : Fin 8) :
    (s.popped i).sp = if i = Config.spIndex then s.top + 1 else s.popNext := by
  rw [State.popped, State.setReg_sp, State.popNext, State.sp, State.setReg_reg, State.popNext]
  split <;> rfl

theorem State.popped_reg (s : State) (i : Fin 8) :
    (s.popped i).reg i = if i = Config.spIndex then s.top + 1 else s.top := by
  by_cases h : i = Config.spIndex
  · subst h
    exact s.popped_sp Config.spIndex
  · rw [if_neg h, State.popped, State.setReg_reg_ne _ _ (Ne.symm h), State.setReg_reg_same]

/-! ### The four instructions when they raise nothing -/

theorem runCycle_advance {op : Byte} {s : State} (hop : setsPc op = false)
    (h : s.pc.toNat + operandCount op + 1 < 256) :
    runCycle (advance op) s = .next { s with pc := BitVec.ofNat 8 (s.pc.toNat + operandCount op + 1) } :=
  runCycle_ok ((advance_eq hop s).trans (writePc_inside h s))

theorem exec_push_next {a : Byte} {s : State} (hr : s.pointed a < 8) (hpc : s.pc.toNat + 2 < 256) :
    exec (.push a) s = .next
      { s.pushed ((s.setReg Config.spIndex s.pushSlot).reg ⟨s.pointed a, hr⟩) with
        pc := BitVec.ofNat 8 (s.pc.toNat + 2) } :=
  (exec_push_of_pointed_lt hr).trans (runCycle_advance rfl hpc)

theorem exec_call_next {a b : Byte} {s : State} (hr : (s.pushed b).pointed a < 8) :
    exec (.call a b) s = .next { s.pushed b with pc := (s.pushed b).reg ⟨(s.pushed b).pointed a, hr⟩ } := by
  rw [exec_call_eq]
  apply runCycle_ok
  rw [Exec.bind_ok (pointerIndex_run a _), Exec.bind_ok (readReg_valid hr _), Exec.bind_ok (writePc_byte _ _),
    advance_setsPc rfl]

theorem exec_pop_next {a : Byte} {s : State} (hr : s.pointed a < 8) (hpc : s.pc.toNat + 2 < 256) :
    exec (.pop a) s = .next { s.popped ⟨s.pointed a, hr⟩ with pc := BitVec.ofNat 8 (s.pc.toNat + 2) } := by
  refine Eq.trans (runCycle_congr ?_) (runCycle_advance (op := defaultOpc .POP) rfl hpc)
  rw [Exec.bind_ok (pointerIndex_run a s), Exec.bind_ok (readSp_run s), Exec.bind_ok (memRead_byte _ s),
    Exec.bind_ok (writeReg_valid hr _ s), Exec.bind_ok (readPopNext_run _), Exec.bind_ok (writeSp_run _ _)]
  rfl

theorem exec_ret_next (s : State) :
    exec .ret s = .next { s.setReg Config.spIndex s.popNext with pc := s.top } := by
  apply runCycle_ok
  rw [Exec.bind_ok (readSp_run s), Exec.bind_ok (memRead_byte _ s), Exec.bind_ok (writePc_byte _ s),
    Exec.bind_ok (readPopNext_run _), Exec.bind_ok (writeSp_run _ _), advance_setsPc rfl]
  rfl

/-- Settles O56: PUSH and CALL both leave `State.pushed` but for `pc`, so its top is the byte they pushed and the
increment of RET or POP gives back their `SP`. -/
theorem stackIsFullDescendingAndShared : Obligations.StackIsFullDescendingAndShared := by
  intro s hwf
  constructor
  · rintro a r hr rfl hpc
    have hv : (s.setReg Config.spIndex s.pushSlot).reg ⟨s.pointed a, hr⟩ =
        if s.pointed a = 7 then s.regs[7] - 1 else s.regs[s.pointed a] :=
      (s.setReg_reg _ _ _).trans (if_congr (eq_comm.trans Fin.ext_iff) rfl rfl)
    exact ⟨_, _, exec_push_next hr hpc, s.pushed_sp _, (State.pushed_top hwf _).trans hv, exec_ret_next _, rfl,
      (State.setReg_sp _ _).trans (s.pushed_popNext _)⟩
  · intro a b hr
    have htop : (s.pushed b).top = b := State.pushed_top hwf b
    have htop' : (s.pushed b).top + 1 = b + 1 := congrArg (· + 1) htop
    refine ⟨_, exec_call_next hr, s.pushed_sp b, htop, ?_⟩
    rintro p r hr' rfl hpc
    exact ⟨_, exec_pop_next hr' hpc, (State.popped_reg _ _).trans (if_congr Fin.ext_iff htop' htop),
      (State.popped_sp _ _).trans (if_congr Fin.ext_iff htop' (s.pushed_popNext b))⟩

end Sys2Proof.Machine
end

/-! ## The output stream (10_state.md R37; 60_exceptions.md R215) -/

section
namespace Sys2Proof.Machine

theorem out_ignoresPc : IgnoresPc State.out := fun _ _ => rfl
theorem out_ignoresFault : IgnoresFault State.out := fun _ _ => rfl

/-- Of the 15 handlers only PRN's writes the output stream. -/
theorem exec_keeps_out {i : Instr} {s t : State} (hi : i.mnemonic ≠ .PRN) (h : exec i s = .next t) :
    t.out = s.out := by
  have hf : Unwritten State.out i :=
    { pc := out_ignoresPc
      fault := out_ignoresFault
      regs := fun _ _ _ => rfl
      mem := fun _ _ _ => rfl
      fl := fun _ _ _ => rfl
      out := fun hw => absurd (beq_iff_eq.mp hw) hi
      running := fun _ _ _ => rfl }
  exact exec_keeps hf h

/-- PRN of a register that exists appends its value and then only advances. -/
theorem exec_prn_valid {a : Byte} {s : State} (ha : a.toNat < 8) :
    exec (.prn a) s =
      runCycle (advance (defaultOpc .PRN)) { s with out := s.out ++ [.prn (s.reg ⟨a.toNat, ha⟩)] } := by
  apply runCycle_congr
  rw [Exec.bind_ok (readOperand_valid ha s), Exec.bind_ok (emit_run _ s)]

theorem exec_prn_invalid {a : Byte} {s : State} (ha : 8 ≤ a.toNat) :
    exec (.prn a) s = .next (s.latch (.outOfRange .reg a.toNat)) :=
  runCycle_error (Exec.bind_error (readOperand_invalid ha s))

/-- A cycle of PRN appends its register's value, whether or not the advance then raises, or nothing. -/
theorem exec_prn_out_cases {a : Byte} {s t : State} (h : exec (.prn a) s = .next t) :
    t.out = s.out ∨ ∃ ha : a.toNat < 8, t.out = s.out ++ [.prn (s.reg ⟨a.toNat, ha⟩)] := by
  by_cases ha : a.toNat < 8
  · rw [exec_prn_valid ha] at h
    exact .inr ⟨ha, runCycle_keeps out_ignoresFault (keeps_advance out_ignoresPc) h⟩
  · rw [exec_prn_invalid (Nat.le_of_not_lt ha)] at h
    cases h
    exact .inl rfl

/-- A step keeps the output stream, or it is PRN's: then it appends the value of PRN's register. -/
theorem stepWith_out_cases {opc : OpcodeMap} {s t : State} (h : stepWith opc s = .next t) :
    t.out = s.out ∨
      s.byteAt s.pc.toNat = opc .PRN ∧
        ∃ ha : (s.byteAt (s.pc.toNat + 1)).toNat < 8, t.out = s.out ++ [.prn (s.reg ⟨_, ha⟩)] := by
  rcases stepWith_cases opc s with ⟨-, hs⟩ | ⟨-, -, ⟨-, hs⟩ | ⟨-, hs⟩ | ⟨-, m, hm, hs⟩⟩ <;> rw [hs] at h
  · cases h
    exact .inl rfl
  · cases h
    exact .inl rfl
  · cases h
    exact .inl rfl
  · by_cases hprn : m = .PRN
    · subst hprn
      exact (exec_prn_out_cases h).imp_right (And.intro hm.symm)
    · exact .inl (exec_keeps_out (by rwa [m.withLatches_mnemonic]) h)

/-- Settles O31: the request is `aluRequest_mod_zero`, and by `stepWith_out_cases` all a step can append is a `Prn`
event, since no opcode reaches MOD. -/
theorem modByZeroHaltsGracefully : Obligations.ModByZeroHaltsGracefully := by
  constructor
  · intro a b s ha hb hzero
    exact ⟨aluRequest_mod_zero ha hb hzero, fun hfault => by simp [State.isFinal, hfault]⟩
  · intro opc s t h
    exact (stepWith_out_cases h).imp_right fun ⟨_, _, hout⟩ => ⟨_, hout⟩

end Sys2Proof.Machine
end

/-! ## The load (70_reset_and_hazards.md R256) -/

section
namespace Sys2Proof.Machine

theorem load_of_fits {image : List Byte} (h : image.length ≤ 256) (s : State) :
    load image s = { s with mem := s.mem.writeList 0 image } := if_pos h

theorem load_of_too_large {image : List Byte} (h : 256 < image.length) (s : State) :
    load image s = { s with mem := failedLoadMemory image }.latch (.programTooLarge image.length) :=
  if_neg (Nat.not_le_of_gt h)

/-- A cell after the load holds the image's byte, or past the image's end what it held before. -/
theorem load_byteAt {image : List Byte} {s : State} (hwf : s.mem.wf = true) (h : image.length ≤ 256) (i : Nat) :
    (load image s).byteAt i = image.getD i (s.byteAt i) := by
  rw [load_of_fits h]
  exact (Memory.writeList_read hwf image (by rwa [Nat.zero_add]) i).trans (if_pos i.zero_le)

/-- Settles O18: `load_byteAt` from the empty memory gives the cells, and a failed load disables every cycle. -/
theorem loadPlacesTheImageFromZero : Obligations.LoadPlacesTheImageFromZero := by
  intro image
  constructor
  · intro hfits
    have hcell (i : Nat) : (boot image).byteAt i = image.getD i 0 := load_byteAt Memory.reset_wf hfits i
    refine ⟨?_, ?_, ?_⟩
    · intro i hi
      rw [hcell, List.getD_eq_getElem _ _ hi]
    · intro i hi
      rw [hcell, List.getD_eq_default _ _ hi]
    · rw [boot, load_of_fits hfits]
  · intro hlarge
    have hboot : boot image =
        { State.reset with mem := failedLoadMemory image }.latch (.programTooLarge image.length) :=
      load_of_too_large hlarge State.reset
    have hfault : (boot image).fault ≠ none := by simp [hboot]
    refine ⟨by rw [hboot, State.latch], fun opc => ?_⟩
    exact (stoppedMachineNeverMoves opc (boot image) (.inr hfault)).2

end Sys2Proof.Machine
end

/-! ## Encoding and decoding (30_encoding.md) -/

section
namespace Sys2Proof

/-! ### Encode, then decode -/

theorem latchesRebuild : ∀ i : Instr, Laws.LatchesRebuild.Statement i
  | .nop => Laws.LatchesRebuild.nop
  | .hlt => Laws.LatchesRebuild.hlt
  | .ret => Laws.LatchesRebuild.ret
  | .push a => Laws.LatchesRebuild.push a
  | .pop a => Laws.LatchesRebuild.pop a
  | .prn a => Laws.LatchesRebuild.prn a
  | .call a b => Laws.LatchesRebuild.call a b
  | .jmp a => Laws.LatchesRebuild.jmp a
  | .jeq a => Laws.LatchesRebuild.jeq a
  | .jne a => Laws.LatchesRebuild.jne a
  | .ldi a b => Laws.LatchesRebuild.ldi a b
  | .add a b => Laws.LatchesRebuild.add a b
  | .sub a b => Laws.LatchesRebuild.sub a b
  | .mul a b => Laws.LatchesRebuild.mul a b
  | .cmp a b => Laws.LatchesRebuild.cmp a b

/-- Under a valid map a mnemonic's own byte decodes to it, with the latches. -/
theorem decodeWith_own {opc : OpcodeMap} (h : opc.Valid) (m : Mnemonic) (a b : Byte) :
    decodeWith opc (opc m) a b = .ok (m.withLatches a b) := by
  rw [decodeWith, lookup_own h]

/-- The byte at position `k` of an append, read from its first part: there, or as the default past that part's end. -/
theorem getD_of_append_getElem {l r : List Byte} {k : Nat} {x : Byte} (h : (l ++ r)[k]? = some x) : l.getD k x = x := by
  rw [List.getD_eq_getElem?_getD]
  by_cases hk : k < l.length
  · rw [← List.getElem?_append_left hk, h, Option.getD_some]
  · rw [List.getElem?_eq_none (Nat.le_of_not_lt hk), Option.getD_none]

/-- Settles O1: the first two bytes after the opcode fill the latches, and an instruction is rebuilt from latches that
begin with its operand bytes. -/
theorem encodedInstructionDecodesBack : Obligations.EncodedInstructionDecodesBack := by
  intro opc hopc i rest hlen
  obtain ⟨-, hrebuild⟩ := latchesRebuild i
  rw [encodeWith, List.cons_append] at hlen ⊢
  match hbytes : i.operandBytes ++ rest with
  | [] => simp [hbytes] at hlen
  | [_] => simp [hbytes] at hlen
  | a :: b :: more =>
    have ha : i.operandBytes.getD 0 a = a := getD_of_append_getElem (r := rest) (by simp [hbytes])
    have hb : i.operandBytes.getD 1 b = b := getD_of_append_getElem (r := rest) (by simp [hbytes])
    have hi := hrebuild a b
    rw [ha, hb] at hi
    rw [decodeBytesWith, decodeWith_own hopc, hi]

/-! ### Decode, then encode -/

/-- What decodes is a mnemonic of the opcode byte, with the latches. -/
theorem decodeWith_ok {opc : OpcodeMap} {op a b : Byte} {i : Instr} (h : decodeWith opc op a b = .ok i) :
    ∃ m, opc m = op ∧ i = m.withLatches a b := by
  rcases decodeWith_cases opc op a b with ⟨m, hm, hd⟩ | hd <;> rw [hd] at h <;> cases h
  exact ⟨m, hm, rfl⟩

theorem Mnemonic.withLatches_operandBytes (m : Mnemonic) (a b : Byte) :
    (m.withLatches a b).operandBytes <+: [a, b] := by
  cases m <;> simp [Mnemonic.withLatches, Instr.operandBytes]

/-- Settles O2: the operand bytes of a decoded instruction are the first of the latches. -/
theorem decodedBytesAreTheEncoding : Obligations.DecodedBytesAreTheEncoding := by
  intro opc op a b i h
  obtain ⟨m, rfl, rfl⟩ := decodeWith_ok h
  rw [encodeWith, m.withLatches_mnemonic]
  exact List.cons_prefix_cons.mpr ⟨rfl, m.withLatches_operandBytes a b⟩

/-! ### The lookup -/

theorem decodeWith_unknown {opc : OpcodeMap} {op : Byte} (h : ∀ m, opc m ≠ op) (a b : Byte) :
    decodeWith opc op a b = .error (.unknownInstruction op) := by
  rw [decodeWith, lookup_none h]

/-- Settles O3. -/
theorem lookupMatchesTheWholeByte : Obligations.LookupMatchesTheWholeByte := by
  intro opc hopc op a b
  constructor
  · rintro m rfl
    exact decodeWith_own hopc m a b
  · intro hop
    exact decodeWith_unknown hop a b

theorem lookup_isNone_iff (opc : OpcodeMap) (op : Byte) : (lookup opc op).isNone = true ↔ ∀ m, opc m ≠ op := by
  rw [Option.isNone_iff_eq_none]
  refine ⟨fun h m hm => ?_, lookup_none⟩
  have hnot := List.find?_eq_none.mp h m m.mem_all
  simp [hm] at hnot

/-- The values below 256 that are legal opcodes are the 15 of the map, in some order. -/
theorem legal_opcodes_perm {opc : OpcodeMap} (h : opc.Valid) :
    ((List.range 256).filter fun n => !(lookup opc (BitVec.ofNat 8 n)).isNone).Perm
      (Mnemonic.all.map fun m => (opc m).toNat) := by
  refine (List.perm_ext_iff_of_nodup (List.nodup_range.filter _) ?_).mpr fun n => ?_
  · exact List.Nodup.map (fun m n hmn => h.distinct m n (BitVec.eq_of_toNat_eq hmn)) (by decide)
  · rw [List.mem_filter, List.mem_range, List.mem_map, Bool.not_eq_true', ← Bool.not_eq_true, lookup_isNone_iff,
      not_forall]
    constructor
    · rintro ⟨hn, m, hm⟩
      exact ⟨m, m.mem_all, by rw [not_not.mp hm, BitVec.toNat_ofNat, Nat.mod_eq_of_lt hn]⟩
    · rintro ⟨m, -, rfl⟩
      exact ⟨(opc m).isLt, m, by simp⟩

/-- Settles O4: 256 less the 15 of the map. -/
theorem illegalOpcodesAreTwoHundredFortyOne : Obligations.IllegalOpcodesAreTwoHundredFortyOne := by
  intro opc hopc
  have hlegal := (legal_opcodes_perm hopc).length_eq
  have hall := List.length_eq_length_filter_add (l := List.range 256)
    fun n => (lookup opc (BitVec.ofNat 8 n)).isNone
  rw [List.length_map, show Mnemonic.all.length = 15 from rfl] at hlegal
  rw [hlegal, List.length_range] at hall
  omega

/-- Settles O5: each of the nine decodes to its mnemonic with the latches, of which `withLatches` drops these. -/
theorem unusedLatchesAreIgnored : Obligations.UnusedLatchesAreIgnored := by
  intro opc op a b a' b'
  constructor
  · rintro (rfl | rfl | rfl) hopc <;> rw [decodeWith_own hopc, decodeWith_own hopc] <;> rfl
  · rintro (rfl | rfl | rfl | rfl | rfl | rfl) hopc <;> rw [decodeWith_own hopc, decodeWith_own hopc] <;> rfl

/-- Settles O6. -/
theorem tableWordsDecode : Obligations.TableWordsDecode :=
  ⟨rfl, rfl, rfl, rfl, rfl, rfl, rfl, rfl, rfl, rfl, rfl⟩

/-! ### The control fields of a valid map -/

/-- Settles O7. -/
theorem defaultOpcodeMapIsValid : Obligations.DefaultOpcodeMapIsValid where
  distinct := by intro m n; cases m <;> cases n <;> decide
  count := by intro m c h; cases m <;> cases h <;> rfl
  sets := by intro m; cases m <;> rfl

theorem OpcodeMap.Valid.setsPc_eq {opc : OpcodeMap} (h : opc.Valid) (m : Mnemonic) :
    setsPc (opc m) = setsPc (defaultOpc m) :=
  (h.sets m).trans (defaultOpcodeMapIsValid.sets m).symm

/-- The table leaves the operand count free exactly where `sets_pc` is 1 (30_encoding.md R84). -/
theorem Mnemonic.requiredCount_isSome (m : Mnemonic) : m.requiredCount.isSome = !m.requiredSetsPc := by
  cases m <;> rfl

/-- Of an opcode that advances, every valid map's byte has the operand count of the default map's. -/
theorem OpcodeMap.Valid.operandCount_eq {opc : OpcodeMap} (h : opc.Valid) {m : Mnemonic}
    (hm : setsPc (defaultOpc m) = false) : operandCount (opc m) = operandCount (defaultOpc m) := by
  have hadv : m.requiredSetsPc = false := (defaultOpcodeMapIsValid.sets m).symm.trans hm
  obtain ⟨c, hc⟩ := Option.isSome_iff_exists.mp (m.requiredCount_isSome.trans (by rw [hadv, Bool.not_false]))
  rw [h.count m c hc, defaultOpcodeMapIsValid.count m c hc]

namespace Machine

/-- Settles O8: the two control fields that drive the advance are the same wherever it looks at them. -/
theorem advanceIsTheSameForEveryValidMap : Obligations.AdvanceIsTheSameForEveryValidMap := by
  intro opc hopc m s
  cases hsets : setsPc (defaultOpc m) with
  | true => rw [advance_setsPc hsets, advance_setsPc ((hopc.setsPc_eq m).trans hsets)]
  | false => rw [advance_eq hsets, advance_eq ((hopc.setsPc_eq m).trans hsets), hopc.operandCount_eq hsets]

end Machine

end Sys2Proof
end

/-! ## What each instruction leaves when it completes (41_alu.md to 45_system.md) -/

section
namespace Sys2Proof.Machine

/-- A cycle whose first part returns is the cycle of the rest, from the state that part leaves. -/
theorem runCycle_bind_ok {α : Type} {x : Exec α} {g : α → Exec Unit} {s t : State} {v : α} (h : x.run s = .ok v t) :
    runCycle (x >>= g) s = runCycle (g v) t :=
  runCycle_congr (Exec.bind_ok h)

/-- A cycle whose first part raises ends there. -/
theorem runCycle_bind_error {α : Type} {x : Exec α} {g : α → Exec Unit} {s t : State} {k : Fault}
    (h : x.run s = .error k t) : runCycle (x >>= g) s = .next (t.latch k) :=
  runCycle_error (Exec.bind_error h)

/-! ### ADD, SUB, MUL, CMP, LDI -/

/-- The difference of bytes with 256 added before the subtraction of numbers. -/
theorem byte_sub_eq_ofNat_add (p q : Byte) : p - q = BitVec.ofNat 8 ((256 + p.toNat - q.toNat) % 256) := by
  apply BitVec.eq_of_toNat_eq
  rw [BitVec.toNat_sub, BitVec.toNat_ofNat]
  omega

/-- Settles O35: the ALU's request completes (`aluBinary_valid`), then the cycle advances by three. -/
theorem arithmeticInstructionResult : Obligations.ArithmeticInstructionResult := by
  intro a b s ha hb hpc
  rw [← byte_add_eq_ofNat, ← byte_sub_eq_ofNat_add, ← byte_mul_eq_ofNat]
  exact ⟨(runCycle_bind_ok (aluBinary_valid (· + ·) ha hb s)).trans (runCycle_advance rfl hpc),
    (runCycle_bind_ok (aluBinary_valid (· - ·) ha hb s)).trans (runCycle_advance rfl hpc),
    (runCycle_bind_ok (aluBinary_valid (· * ·) ha hb s)).trans (runCycle_advance rfl hpc)⟩

/-- Settles O9: the encodings by definition, the results by O35. -/
theorem firstOperandIsLeftSourceAndDestination : Obligations.FirstOperandIsLeftSourceAndDestination := by
  intro opc a b s
  refine ⟨rfl, rfl, rfl, rfl, rfl, rfl, fun ha hb hpc => ?_⟩
  obtain ⟨hadd, hsub, hmul⟩ := arithmeticInstructionResult a b s ha hb hpc
  rw [← byte_add_eq_ofNat] at hadd
  rw [← byte_sub_eq_ofNat_add] at hsub
  rw [← byte_mul_eq_ofNat] at hmul
  exact ⟨⟨_, hadd, rfl⟩, ⟨_, hsub, rfl⟩, ⟨_, hmul, rfl⟩⟩

/-- CMP of registers that exist writes `E` and then only advances. -/
theorem exec_cmp_valid {a b : Byte} (ha : a.toNat < 8) (hb : b.toNat < 8) (s : State) :
    exec (.cmp a b) s = runCycle (advance (defaultOpc .CMP))
      (s.setE (equalFlag (s.reg ⟨a.toNat, ha⟩) (s.reg ⟨b.toNat, hb⟩))) :=
  runCycle_bind_ok (aluCmp_valid ha hb s)

theorem equalFlag_eq_decide (p q : Byte) : equalFlag p q = decide (p = q) := rfl

/-- Settles O36: `E` is read back as written, and the write keeps the other bits of `FL`. -/
theorem compareInstructionResult : Obligations.CompareInstructionResult := by
  intro a b s ha hb hpc
  refine ⟨_, (exec_cmp_valid ha hb s).trans (runCycle_advance rfl hpc), ?_, withE_other s.fl _⟩
  refine (s.setE_e _).trans ?_
  rw [equalFlag_eq_decide]
  exact decide_eq_decide.mpr BitVec.toNat_inj.symm

/-- LDI into a register that exists writes it and then only advances. -/
theorem exec_ldi_valid {a : Byte} (ha : a.toNat < 8) (b : Byte) (s : State) :
    exec (.ldi a b) s = runCycle (advance (defaultOpc .LDI)) (s.setReg ⟨a.toNat, ha⟩ b) :=
  runCycle_bind_ok (writeOperand_valid ha b s)

/-- Settles O37. -/
theorem loadImmediateResult : Obligations.LoadImmediateResult :=
  fun _ b s ha hpc => (exec_ldi_valid ha b s).trans (runCycle_advance rfl hpc)

/-! ### PRN, HLT, NOP -/

/-- Settles O38. -/
theorem printResult : Obligations.PrintResult :=
  fun _ _ ha hpc => (exec_prn_valid ha).trans (runCycle_advance rfl hpc)

/-- Settles O45. -/
theorem haltResult : Obligations.HaltResult := by
  intro s hpc
  refine ⟨(exec_hlt_eq s).trans (runCycle_advance rfl hpc), fun hfault => ?_⟩
  simp [State.isFinal, hfault]

/-- Settles O46. -/
theorem nopResult : Obligations.NopResult := fun _ hpc => runCycle_advance rfl hpc

/-! ### The stack -/

/-- Settles O55. -/
theorem stackPointerWraps : Obligations.StackPointerWraps := by
  intro s
  have hsp : s.sp = s.regs[7] := rfl
  rw [State.pushSlot, State.popNext, hsp, BitVec.toNat_sub, BitVec.toNat_add]
  exact ⟨congrArg (· % 256) (Nat.add_comm _ _), rfl⟩

/-- What a register reads as once `SP` is decremented. -/
theorem State.decremented_reg (s : State) {r : Nat} (hr : r < 8) :
    (s.setReg Config.spIndex s.pushSlot).reg ⟨r, hr⟩ = if r = 7 then s.regs[7] - 1 else s.regs[r] :=
  (s.setReg_reg _ _ _).trans (if_congr (eq_comm.trans Fin.ext_iff) rfl rfl)

/-- Settles O39: PUSH leaves `State.pushed` of the register's value after the decrement, and advances. -/
theorem pushResult : Obligations.PushResult := by
  rintro a s r hr rfl hpc
  rw [← s.decremented_reg hr]
  exact exec_push_next hr hpc

/-- The registers after a pop. -/
theorem State.popped_regs (s : State) (i : Fin 8) :
    (s.popped i).regs =
      if i.val = 7 then s.regs.set 7 (s.top + 1) else (s.regs.set i s.top).set 7 (s.regs[7] + 1) := by
  have hsp := s.popped_sp i
  rw [State.popped, State.setReg_sp] at hsp
  rw [State.popped, hsp, State.setReg_regs, State.setReg_regs]
  by_cases hi : i = Config.spIndex
  · subst hi
    exact Vector.set_set _ _
  · have hval : i.val ≠ 7 := fun h => hi (Fin.ext h)
    rw [if_neg hi, if_neg hval]
    rfl

/-- Settles O40. -/
theorem popResult : Obligations.PopResult := by
  rintro a s r hr rfl hpc
  refine (exec_pop_next hr hpc).trans (congrArg Host.Outcome.next ?_)
  exact congrArg (fun regs => { s with regs := regs, pc := BitVec.ofNat 8 (s.pc.toNat + 2) }) (s.popped_regs _)

/-- Settles O41: CALL leaves `State.pushed b`, and jumps to a register of that state. -/
theorem callResult : Obligations.CallResult := by
  rintro a b s _ r hr rfl hptr
  have hlt : (s.pushed b).pointed a < 8 := hptr.symm.trans_lt hr
  have hreg : (⟨(s.pushed b).pointed a, hlt⟩ : Fin 8) = ⟨r, hr⟩ := Fin.ext hptr.symm
  rw [← s.decremented_reg hr, exec_call_next hlt, hreg]
  rfl

/-- Settles O42. -/
theorem returnResult : Obligations.ReturnResult :=
  ⟨fun _ hopc => ⟨rfl, decodeWith_own hopc .RET⟩, rfl, exec_ret_next⟩

/-! ### Jumps -/

/-- Settles O43. -/
theorem jumpResult : Obligations.JumpResult := by
  intro a s ha
  apply runCycle_ok
  rw [Exec.bind_ok (readOperand_valid ha s), Exec.bind_ok (writePc_byte _ s), advance_setsPc rfl]
  rfl

theorem exec_jeq_eq (a : Byte) (s : State) :
    exec (.jeq a) s = runCycle (do branch s.e a; advance (defaultOpc .JEQ)) s :=
  runCycle_bind_ok (readE_run s)

theorem exec_jne_eq (a : Byte) (s : State) :
    exec (.jne a) s = runCycle (do branch (!s.e) a; advance (defaultOpc .JNE)) s :=
  runCycle_bind_ok (readE_run s)

theorem branch_cycle_taken {op a : Byte} (hop : setsPc op = true) (ha : a.toNat < 8) (s : State) :
    runCycle (do branch true a; advance op) s = .next { s with pc := s.reg ⟨a.toNat, ha⟩ } :=
  (runCycle_bind_ok (branch_taken ha s)).trans (runCycle_ok (advance_setsPc hop _))

theorem branch_cycle_taken_bad {a : Byte} (op : Byte) (ha : 8 ≤ a.toNat) (s : State) :
    runCycle (do branch true a; advance op) s = .next (s.latch (.outOfRange .reg a.toNat)) :=
  runCycle_bind_error (branch_taken_bad ha s)

theorem branch_cycle_not_taken {op : Byte} (a : Byte) (hop : setsPc op = true) {s : State}
    (hpc : s.pc.toNat + 2 < 256) :
    runCycle (do branch false a; advance op) s = .next { s with pc := BitVec.ofNat 8 (s.pc.toNat + 2) } :=
  (runCycle_bind_ok ((branch_not_taken a s).trans (writePc_inside hpc s))).trans (runCycle_ok (advance_setsPc hop _))

/-- The fall-through of JEQ and JNE past the top of memory; no cycle decodes there (20_memory.md R52). -/
theorem branch_cycle_not_taken_top (op a : Byte) {s : State} (hpc : 256 ≤ s.pc.toNat + 2) :
    runCycle (do branch false a; advance op) s = .next (s.latch (.outOfRange .pc (s.pc.toNat + 2))) :=
  runCycle_bind_error ((branch_not_taken a s).trans (writePc_outside hpc s))

/-- Settles O44. -/
theorem branchResult : Obligations.BranchResult := by
  intro a s
  rw [exec_jeq_eq, exec_jne_eq]
  refine ⟨?_, ?_, ?_, ?_⟩
  · intro ha he
    rw [he]
    exact branch_cycle_taken rfl ha s
  · intro he hpc
    rw [he]
    exact branch_cycle_not_taken a rfl hpc
  · intro ha he
    rw [he]
    exact branch_cycle_taken rfl ha s
  · intro he hpc
    rw [he]
    exact branch_cycle_not_taken a rfl hpc

/-! ### No instruction raises without cause -/

theorem Instr.wf_iff (i : Instr) : i.wf = true ↔ ∀ a ∈ i.registerOperands, a.toNat < 8 := by
  simp [Instr.wf, validIndex]

/-- Settles O47: by the completion statements above. -/
theorem wellFormedInstructionRunsWithoutError : Obligations.WellFormedInstructionRunsWithoutError := by
  intro i s hwf hptr hpc
  have hop := (Instr.wf_iff i).mp hwf
  have hpc1 : s.pc.toNat + 1 < 256 := by omega
  have hpc2 : s.pc.toNat + 2 < 256 := by omega
  cases i with
  | nop => exact ⟨_, nopResult s hpc1, rfl⟩
  | hlt => exact ⟨_, (haltResult s hpc1).1, rfl⟩
  | ret => exact ⟨_, exec_ret_next s, rfl⟩
  | push a => exact ⟨_, exec_push_next (hptr _ rfl) hpc2, rfl⟩
  | pop a => exact ⟨_, exec_pop_next (hptr _ rfl) hpc2, rfl⟩
  | prn a => exact ⟨_, printResult a s (hop a (.head _)) hpc2, rfl⟩
  | call a b => exact ⟨_, exec_call_next (hptr _ rfl), rfl⟩
  | jmp a => exact ⟨_, jumpResult a s (hop a (.head _)), rfl⟩
  | jeq a =>
    obtain ⟨htaken, hfall, -, -⟩ := branchResult a s
    cases he : s.e with
    | true => exact ⟨_, htaken (hop a (.head _)) he, rfl⟩
    | false => exact ⟨_, hfall he hpc2, rfl⟩
  | jne a =>
    obtain ⟨-, -, htaken, hfall⟩ := branchResult a s
    cases he : s.e with
    | true => exact ⟨_, hfall he hpc2, rfl⟩
    | false => exact ⟨_, htaken (hop a (.head _)) he, rfl⟩
  | ldi a b => exact ⟨_, loadImmediateResult a b s (hop a (.head _)) hpc, rfl⟩
  | add a b =>
    obtain ⟨hnext, -, -⟩ := arithmeticInstructionResult a b s (hop a (.head _)) (hop b (.tail _ (.head _))) hpc
    exact ⟨_, hnext, rfl⟩
  | sub a b =>
    obtain ⟨-, hnext, -⟩ := arithmeticInstructionResult a b s (hop a (.head _)) (hop b (.tail _ (.head _))) hpc
    exact ⟨_, hnext, rfl⟩
  | mul a b =>
    obtain ⟨-, -, hnext⟩ := arithmeticInstructionResult a b s (hop a (.head _)) (hop b (.tail _ (.head _))) hpc
    exact ⟨_, hnext, rfl⟩
  | cmp a b =>
    obtain ⟨_, hnext, -⟩ := compareInstructionResult a b s (hop a (.head _)) (hop b (.tail _ (.head _))) hpc
    exact ⟨_, hnext, rfl⟩

end Sys2Proof.Machine
end

/-! ## Where the instructions trap (60_exceptions.md R213) -/

section
namespace Sys2Proof.Machine

theorem exec_ldi_bad {a : Byte} (b : Byte) (ha : 8 ≤ a.toNat) (s : State) :
    exec (.ldi a b) s = .next (s.latch (.outOfRange .reg a.toNat)) :=
  runCycle_bind_error (writeOperand_invalid ha b s)

theorem exec_jmp_bad {a : Byte} (ha : 8 ≤ a.toNat) (s : State) :
    exec (.jmp a) s = .next (s.latch (.outOfRange .reg a.toNat)) :=
  runCycle_bind_error (readOperand_invalid ha s)

theorem exec_cmp_bad_left {a : Byte} (b : Byte) (ha : 8 ≤ a.toNat) (s : State) :
    exec (.cmp a b) s = .next (s.latch (.outOfRange .reg a.toNat)) :=
  runCycle_bind_error (aluCmp_bad_left b ha s)

theorem exec_cmp_bad_right {a b : Byte} (ha : a.toNat < 8) (hb : 8 ≤ b.toNat) (s : State) :
    exec (.cmp a b) s = .next (s.latch (.outOfRange .reg b.toNat)) :=
  runCycle_bind_error (aluCmp_bad_right ha hb s)

/-- Settles O48: the first operand read that fails ends the cycle before anything is written. -/
theorem badRegisterOperandTraps : Obligations.BadRegisterOperandTraps := by
  intro a b s
  refine ⟨fun ha => ?_, fun ha hb => ?_, fun ha he => ?_, fun ha he => ?_⟩
  · simp only [List.forall_mem_cons, List.not_mem_nil, false_imp_iff, implies_true, and_true]
    exact ⟨runCycle_bind_error (aluBinary_bad_left (· + ·) b ha s),
      runCycle_bind_error (aluBinary_bad_left (· - ·) b ha s),
      runCycle_bind_error (aluBinary_bad_left (· * ·) b ha s),
      exec_cmp_bad_left b ha s, exec_ldi_bad b ha s, exec_prn_invalid ha, exec_jmp_bad ha s⟩
  · simp only [List.forall_mem_cons, List.not_mem_nil, false_imp_iff, implies_true, and_true]
    exact ⟨runCycle_bind_error (aluBinary_bad_right (· + ·) ha hb s),
      runCycle_bind_error (aluBinary_bad_right (· - ·) ha hb s),
      runCycle_bind_error (aluBinary_bad_right (· * ·) ha hb s),
      exec_cmp_bad_right ha hb s⟩
  · rw [exec_jeq_eq, he]
    exact branch_cycle_taken_bad _ ha s
  · rw [exec_jne_eq, he]
    exact branch_cycle_taken_bad _ ha s

/-- PUSH of a register that does not exist has decremented `SP` already (43_stack.md R170). -/
theorem exec_push_bad {a : Byte} {s : State} (hr : 8 ≤ s.pointed a) :
    exec (.push a) s = .next ((s.setReg Config.spIndex s.pushSlot).latch (.outOfRange .reg (s.pointed a))) := by
  apply runCycle_error
  rw [Exec.bind_ok (pointerIndex_run a s), Exec.bind_ok (readPushSlot_run s), Exec.bind_ok (writeSp_run _ s),
    Exec.bind_error (readReg_invalid hr _)]

theorem exec_pop_bad {a : Byte} {s : State} (hr : 8 ≤ s.pointed a) :
    exec (.pop a) s = .next (s.latch (.outOfRange .reg (s.pointed a))) := by
  apply runCycle_error
  rw [Exec.bind_ok (pointerIndex_run a s), Exec.bind_ok (readSp_run s), Exec.bind_ok (memRead_byte _ s),
    Exec.bind_error (writeReg_invalid hr _ s)]

/-- CALL through a cell that names no register has pushed already (44_control.md R180). -/
theorem exec_call_bad {a b : Byte} {s : State} (hr : 8 ≤ (s.pushed b).pointed a) :
    exec (.call a b) s = .next ((s.pushed b).latch (.outOfRange .reg ((s.pushed b).pointed a))) := by
  rw [exec_call_eq]
  apply runCycle_error
  rw [Exec.bind_ok (pointerIndex_run a _), Exec.bind_error (readReg_invalid hr _)]

/-- Settles O49. -/
theorem badPointerCellTraps : Obligations.BadPointerCellTraps := by
  intro a b s m
  constructor
  · intro hr
    exact ⟨exec_push_bad hr, exec_pop_bad hr⟩
  · rintro rfl hr
    exact exec_call_bad hr

theorem runCycle_advance_top {op : Byte} {s : State} (hop : setsPc op = false)
    (h : 256 ≤ s.pc.toNat + operandCount op + 1) :
    runCycle (advance op) s = .next (s.latch (.outOfRange .pc (s.pc.toNat + operandCount op + 1))) :=
  runCycle_error ((advance_eq hop s).trans (writePc_outside h s))

/-- At 253 the advance of a three-byte instruction raises, with the handler's effects kept. -/
theorem runCycle_advance_at_253 {op : Byte} {s : State} (hop : setsPc op = false) (hcount : operandCount op = 2)
    (hpc : s.pc.toNat = 253) : runCycle (advance op) s = .next (s.latch (.outOfRange .pc 256)) := by
  have htop := runCycle_advance_top (s := s) hop (by omega)
  rwa [hcount, hpc] at htop

/-- Settles O50: the handlers complete as below the top, then the advance raises. -/
theorem advancePastTheTopTraps : Obligations.AdvancePastTheTopTraps := by
  intro a b s ha hb hpc
  refine ⟨fun v => ?_, ?_, ?_, ?_, _, ?_, s.setE_e _⟩
  · exact (exec_ldi_valid ha v s).trans (runCycle_advance_at_253 rfl rfl hpc)
  · exact (runCycle_bind_ok (aluBinary_valid (· + ·) ha hb s)).trans (runCycle_advance_at_253 rfl rfl hpc)
  · exact (runCycle_bind_ok (aluBinary_valid (· - ·) ha hb s)).trans (runCycle_advance_at_253 rfl rfl hpc)
  · exact (runCycle_bind_ok (aluBinary_valid (· * ·) ha hb s)).trans (runCycle_advance_at_253 rfl rfl hpc)
  · exact (exec_cmp_valid ha hb s).trans (runCycle_advance_at_253 rfl rfl hpc)

end Sys2Proof.Machine
end

/-! ## The ALU's other functions, its errors and its names (41_alu.md, part 1) -/

section
namespace Sys2Proof.Machine

theorem aluNot_valid {a : Byte} (ha : a.toNat < 8) (s : State) :
    (aluNot a).run s = .ok () (s.setReg ⟨a.toNat, ha⟩ (255 - s.reg ⟨a.toNat, ha⟩)) := by
  rw [aluNot, Exec.bind_ok (readOperand_valid ha s)]
  exact writeOperand_valid ha _ s

theorem aluNot_bad {a : Byte} (ha : 8 ≤ a.toNat) (s : State) :
    (aluNot a).run s = .error (.outOfRange .reg a.toNat) s := by
  rw [aluNot, Exec.bind_error (readOperand_invalid ha s)]

/-- MOD with a non-zero divisor (41_alu.md R145). -/
theorem aluMod_valid {a b : Byte} (ha : a.toNat < 8) (hb : b.toNat < 8) {s : State} (h : s.reg ⟨b.toNat, hb⟩ ≠ 0) :
    (aluMod a b).run s = .ok () (s.setReg ⟨a.toNat, ha⟩ (s.reg ⟨a.toNat, ha⟩ % s.reg ⟨b.toNat, hb⟩)) := by
  rw [aluMod, Exec.bind_ok (readOperand_valid ha s), Exec.bind_ok (readOperand_valid hb s), if_neg h]
  exact writeOperand_valid ha _ s

theorem aluMod_bad_left {a : Byte} (b : Byte) (ha : 8 ≤ a.toNat) (s : State) :
    (aluMod a b).run s = .error (.outOfRange .reg a.toNat) s := by
  rw [aluMod, Exec.bind_error (readOperand_invalid ha s)]

theorem aluMod_bad_right {a b : Byte} (ha : a.toNat < 8) (hb : 8 ≤ b.toNat) (s : State) :
    (aluMod a b).run s = .error (.outOfRange .reg b.toNat) s := by
  rw [aluMod, Exec.bind_ok (readOperand_valid ha s), Exec.bind_error (readOperand_invalid hb s)]

/-- Settles O29. -/
theorem aluBitwiseFunctions : Obligations.AluBitwiseFunctions := by
  intro a b s ha
  refine ⟨⟨_, aluNot_valid ha s, BitVec.toNat_sub_of_le ?_⟩, fun hb => ⟨?_, ?_, ?_⟩⟩
  · exact Nat.le_of_lt_succ (s.reg ⟨a.toNat, ha⟩).isLt
  · exact ⟨_, aluBinary_valid (· &&& ·) ha hb s, fun _ _ => BitVec.getLsbD_and⟩
  · exact ⟨_, aluBinary_valid (· ||| ·) ha hb s, fun _ _ => BitVec.getLsbD_or⟩
  · exact ⟨_, aluBinary_valid (· ^^^ ·) ha hb s, fun _ _ => BitVec.getLsbD_xor⟩

/-- Settles O30: the remainder of the bytes is that of their numbers. -/
theorem aluRemainder : Obligations.AluRemainder := by
  intro a b s ha hb hne
  have hpos : 0 < s.regs[b.toNat].toNat := Nat.pos_of_ne_zero fun h => hne (BitVec.eq_of_toNat_eq h)
  refine ⟨_, aluMod_valid ha hb hne, Nat.mod_lt _ hpos, s.regs[a.toNat].toNat / s.regs[b.toNat].toNat, ?_⟩
  exact (Nat.div_add_mod' _ _).symm

/-- Every function that reads `x[a]` reports a bad `a` first (41_alu.md R130). -/
theorem aluRequest_bad_left {f : AluFn} {a : Byte} (b : Byte) (hshl : f ≠ .shl) (hshr : f ≠ .shr) (ha : 8 ≤ a.toNat)
    (s : State) : (aluRequest f a b).run s = .error (.outOfRange .reg a.toNat) s := by
  cases f with
  | add => exact aluBinary_bad_left (· + ·) b ha s
  | sub => exact aluBinary_bad_left (· - ·) b ha s
  | mul => exact aluBinary_bad_left (· * ·) b ha s
  | and => exact aluBinary_bad_left (· &&& ·) b ha s
  | or => exact aluBinary_bad_left (· ||| ·) b ha s
  | xor => exact aluBinary_bad_left (· ^^^ ·) b ha s
  | not => exact aluNot_bad ha s
  | shl => exact absurd rfl hshl
  | shr => exact absurd rfl hshr
  | mod => exact aluMod_bad_left b ha s
  | cmp => exact aluCmp_bad_left b ha s

/-- Every function that also reads `x[b]` reports a bad `b` next (41_alu.md R130, R141). -/
theorem aluRequest_bad_right {f : AluFn} {a b : Byte} (hshl : f ≠ .shl) (hshr : f ≠ .shr) (hnot : f ≠ .not)
    (ha : a.toNat < 8) (hb : 8 ≤ b.toNat) (s : State) :
    (aluRequest f a b).run s = .error (.outOfRange .reg b.toNat) s := by
  cases f with
  | add => exact aluBinary_bad_right (· + ·) ha hb s
  | sub => exact aluBinary_bad_right (· - ·) ha hb s
  | mul => exact aluBinary_bad_right (· * ·) ha hb s
  | and => exact aluBinary_bad_right (· &&& ·) ha hb s
  | or => exact aluBinary_bad_right (· ||| ·) ha hb s
  | xor => exact aluBinary_bad_right (· ^^^ ·) ha hb s
  | not => exact absurd rfl hnot
  | shl => exact absurd rfl hshl
  | shr => exact absurd rfl hshr
  | mod => exact aluMod_bad_right ha hb s
  | cmp => exact aluCmp_bad_right ha hb s

/-- Settles O32: by the two lemmas above; SHL and SHR do nothing by definition. -/
theorem aluIndexErrorsChangeNothing : Obligations.AluIndexErrorsChangeNothing := by
  intro a b s
  refine ⟨fun f hshl hshr => ⟨fun ha => ?_, fun ha hb hnot => ?_⟩, rfl, rfl⟩
  · exact aluRequest_bad_left b hshl hshr ha s
  · exact aluRequest_bad_right hshl hshr hnot ha hb s

/-- Writing back what a register holds changes nothing. -/
theorem State.setReg_reg_self (s : State) (i : Fin 8) : s.setReg i (s.reg i) = s := by
  rw [State.setReg, State.reg]
  exact congrArg (fun regs => { s with regs := regs }) (Vector.set_getElem_self i.isLt)

/-- Settles O33: the results for two registers, of one value `p`. -/
theorem sameRegisterAsBothOperands : Obligations.SameRegisterAsBothOperands := by
  intro a s ha
  have binary (f : Byte → Byte → Byte) {v : Byte} (hv : f (s.reg ⟨a.toNat, ha⟩) (s.reg ⟨a.toNat, ha⟩) = v) :
      (aluBinary f a a).run s = .ok () (s.setReg ⟨a.toNat, ha⟩ v) := hv ▸ aluBinary_valid f ha ha s
  have unchanged (f : Byte → Byte → Byte) (hf : ∀ p, f p p = p) : (aluBinary f a a).run s = .ok () s :=
    (binary f (hf _)).trans (congrArg _ (s.setReg_reg_self _))
  refine ⟨binary (· + ·) ?_, binary (· - ·) (BitVec.sub_self _), binary (· ^^^ ·) BitVec.xor_self,
    unchanged (· &&& ·) (fun _ => BitVec.and_self), unchanged (· ||| ·) (fun _ => BitVec.or_self), fun hne => ?_,
    _, aluCmp_valid ha ha s, (s.setE_e _).trans (decide_eq_true rfl)⟩
  · rw [Nat.two_mul]
    exact byte_add_eq_ofNat _ _
  · have hmod := aluMod_valid ha ha hne
    rwa [BitVec.umod_self] at hmod

theorem AluFn.ofName_eq_none {name : String}
    (h : name ∉ ["ADD", "SUB", "MUL", "AND", "OR", "XOR", "NOT", "SHL", "SHR", "MOD", "CMP"]) :
    AluFn.ofName name = none := by
  simp only [List.mem_cons, not_or] at h
  simp [AluFn.ofName, h]

/-- Settles O34. -/
theorem unknownOperationNameRaises : Obligations.UnknownOperationNameRaises := by
  intro name a b s
  refine ⟨fun h => ?_, rfl, rfl, rfl, rfl, rfl, rfl, rfl, rfl, rfl, rfl, rfl⟩
  rw [aluByName, AluFn.ofName_eq_none h]
  rfl

end Sys2Proof.Machine
end

/-! ## One step (40_cycle_dispatch.md section 1) -/

section
namespace Sys2Proof.Machine

theorem runCycle_next (c : Exec Unit) (s : State) : ∃ t, runCycle c s = .next t := by
  rcases runCycle_cases c s with ⟨t, -, h⟩ | ⟨k, t, -, h⟩
  · exact ⟨t, h⟩
  · exact ⟨_, h⟩

theorem exec_next (i : Instr) (s : State) : ∃ t, exec i s = .next t := by
  cases i <;> exact runCycle_next _ s

theorem stepWith_next (opc : OpcodeMap) (s : State) : ∃ t, stepWith opc s = .next t := by
  rcases stepWith_cases opc s with ⟨-, h⟩ | ⟨-, -, ⟨-, h⟩ | ⟨-, h⟩ | ⟨-, m, -, h⟩⟩
  · exact ⟨_, h⟩
  · exact ⟨_, h⟩
  · exact ⟨_, h⟩
  · rw [h]
    exact exec_next _ s

/-- Settles O14. -/
theorem everyStepAnswersANextState : Obligations.EveryStepAnswersANextState := ⟨exec_next, stepWith_next⟩

/-! ### Which case of `stepWith_cases` it is -/

theorem stepWith_top (opc : OpcodeMap) {s : State} (he : s.enabled = true) (hpc : 254 ≤ s.pc.toNat) :
    stepWith opc s = .next (s.latch (.outOfRange .mem 256)) := by
  simp only [stepWith, he, if_true, fetchInstr_top opc (by omega : 256 ≤ s.pc.toNat + 2), takeFault]

theorem stepWith_rejected {opc : OpcodeMap} {s : State} {e : DecodeError} (he : s.enabled = true)
    (hpc : s.pc.toNat + 2 < 256)
    (hd : decodeWith opc (s.byteAt s.pc.toNat) (s.byteAt (s.pc.toNat + 1)) (s.byteAt (s.pc.toNat + 2)) = .error e) :
    stepWith opc s = .next (s.latch (.unknownInstruction s.pc (s.byteAt s.pc.toNat))) := by
  simp only [stepWith, he, if_true, fetchInstr_inside opc hpc, hd, takeFault]

theorem stepWith_decoded {opc : OpcodeMap} {s : State} {i : Instr} (he : s.enabled = true) (hpc : s.pc.toNat + 2 < 256)
    (hd : decodeWith opc (s.byteAt s.pc.toNat) (s.byteAt (s.pc.toNat + 1)) (s.byteAt (s.pc.toNat + 2)) = .ok i) :
    stepWith opc s = exec i s := by
  simp only [stepWith, he, if_true, fetchInstr_inside opc hpc, hd]

/-- Settles O10. -/
theorem stepRunsTheDecodedInstruction : Obligations.StepRunsTheDecodedInstruction :=
  fun _ s _ hrun hfault hpc hd => ⟨stepWith_decoded (s.enabled_iff.mpr ⟨hrun, hfault⟩) hpc hd, rfl⟩

/-- Settles O12. -/
theorem nothingExecutesFromTheTopTwoCells : Obligations.NothingExecutesFromTheTopTwoCells :=
  fun opc s hrun hfault hpc => stepWith_top opc (s.enabled_iff.mpr ⟨hrun, hfault⟩) hpc

theorem State.latch_not_enabled (s : State) (k : Fault) : (s.latch k).enabled = false :=
  (State.enabled_eq_false_iff _).mpr (.inr (by simp))

/-- Settles O13: the first step latches the error, and no cycle is enabled after it. -/
theorem unknownOpcodeStopsTheMachine : Obligations.UnknownOpcodeStopsTheMachine := by
  intro opc s hrun hfault hpc hop
  have hstep := stepWith_rejected (s.enabled_iff.mpr ⟨hrun, hfault⟩) hpc (decodeWith_unknown hop _ _)
  refine ⟨hstep, fun k => ?_⟩
  exact (stepsWith_succ_of_next hstep k).trans (stepsWith_of_step_fixed (stepWith_idle opc (s.latch_not_enabled _)) k)

/-! ### The word placed where the next cycle fetches -/

theorem State.storeAtPc_inside {s : State} (hpc : s.pc.toNat + 2 < 256) (v0 v1 v2 : Byte) :
    s.storeAtPc v0 v1 v2 =
      ((s.setByte s.pc.toNat v0).setByte (s.pc.toNat + 1) v1).setByte (s.pc.toNat + 2) v2 := by
  have h0 : s.pc.toNat < Config.memSize := s.pc.isLt
  have h1 : s.pc.toNat + 1 < Config.memSize := Nat.lt_of_succ_lt hpc
  have h2 : s.pc.toNat + 2 < Config.memSize := hpc
  simp only [State.storeAtPc, h0, h1, h2, if_true]

theorem State.setByte_wf {s : State} (hwf : s.mem.wf = true) {a : Nat} (ha : a < 256) (v : Byte) :
    (s.setByte a v).mem.wf = true :=
  Memory.write_wf hwf v ha

/-- The three bytes stored at `pc` are the ones the next cycle reads. -/
theorem State.storeAtPc_bytes {s : State} (hwf : s.mem.wf = true) (hpc : s.pc.toNat + 2 < 256) (v0 v1 v2 : Byte) :
    (s.storeAtPc v0 v1 v2).byteAt s.pc.toNat = v0 ∧ (s.storeAtPc v0 v1 v2).byteAt (s.pc.toNat + 1) = v1 ∧
      (s.storeAtPc v0 v1 v2).byteAt (s.pc.toNat + 2) = v2 := by
  have hwf0 := State.setByte_wf hwf s.pc.isLt v0
  have hwf1 := State.setByte_wf hwf0 (Nat.lt_of_succ_lt hpc) v1
  rw [State.storeAtPc_inside hpc]
  refine ⟨?_, ?_, State.setByte_byteAt_same hwf1 _ _⟩
  · rw [State.setByte_byteAt_ne _ _ (by omega), State.setByte_byteAt_ne _ _ (by omega),
      State.setByte_byteAt_same hwf]
  · rw [State.setByte_byteAt_ne _ _ (by omega), State.setByte_byteAt_same hwf0]

theorem decode_of_decodeTableWord {nbits w : Nat} {i : Instr} (h : decodeTableWord nbits w = some i) :
    decode (tableByte nbits w 0) (tableByte nbits w 1) (tableByte nbits w 2) = .ok i := by
  rw [decodeTableWord] at h
  generalize decode (tableByte nbits w 0) (tableByte nbits w 1) (tableByte nbits w 2) = d at h ⊢
  cases d with
  | ok j => exact congrArg Except.ok (Option.some.inj h)
  | error e => cases h

/-- Settles O22: the word's bytes are fetched, and storing them has changed neither `pc` nor the enable. -/
theorem storedWordIsTheOneThatRuns : Obligations.StoredWordIsTheOneThatRuns := by
  intro s nbits w i hwf hrun hfault hpc hw
  obtain ⟨h0, h1, h2⟩ :=
    State.storeAtPc_bytes hwf hpc (tableByte nbits w 0) (tableByte nbits w 1) (tableByte nbits w 2)
  have hinside := State.storeAtPc_inside hpc (tableByte nbits w 0) (tableByte nbits w 1) (tableByte nbits w 2)
  have hpc' : (s.withFetchWord nbits w).pc = s.pc := by
    rw [State.withFetchWord, hinside]
    rfl
  have henabled : (s.withFetchWord nbits w).enabled = true :=
    (congrArg State.enabled hinside).trans (s.enabled_iff.mpr ⟨hrun, hfault⟩)
  refine stepWith_decoded henabled (by rwa [hpc']) ?_
  rw [hpc', State.withFetchWord, h0, h1, h2]
  exact decode_of_decodeTableWord hw

end Sys2Proof.Machine
end

/-! ## How the cycle of a decoded instruction ends

Said once for all 15 instructions: which error may be raised and from where, and what then has happened to `pc`. -/

section
namespace Sys2Proof.Machine

theorem setsPc_defaultOpc (m : Mnemonic) : setsPc (defaultOpc m) = m.requiredSetsPc := defaultOpcodeMapIsValid.sets m

/-- The ways in which the cycle of an instruction of mnemonic `m` ends from `s`. `u` is the state in which the handler
ends, by returning or at its `raise`. -/
inductive CycleEnd (m : Mnemonic) (s : State) : Host.Outcome State Fault Refusal → Prop where
  /-- a register index above 7: the handler has not written `pc` or the output -/
  | badRegister {u : State} {r : Nat} (hpc : u.pc = s.pc) (hout : u.out = s.out) (hlow : 8 ≤ r) (hhigh : r < 256) :
    CycleEnd m s (.next (u.latch (.outOfRange .reg r)))
  /-- `sets_pc` = 0, the handler returned and `pc` advanced -/
  | advanced {u : State} (hm : m.requiredSetsPc = false) (hfault : u.fault = s.fault)
      (hlt : s.pc.toNat + operandCount (defaultOpc m) + 1 < 256) :
    CycleEnd m s (.next { u with pc := BitVec.ofNat 8 (s.pc.toNat + operandCount (defaultOpc m) + 1) })
  /-- `sets_pc` = 0, the handler returned and the advance raised -/
  | advanceRaised {u : State} (hm : m.requiredSetsPc = false) (hpc : u.pc = s.pc)
      (hle : 256 ≤ s.pc.toNat + operandCount (defaultOpc m) + 1) :
    CycleEnd m s (.next (u.latch (.outOfRange .pc (s.pc.toNat + operandCount (defaultOpc m) + 1))))
  /-- `sets_pc` = 1 and the handler returned -/
  | jumped {u : State} (hm : m.requiredSetsPc = true) (hfault : u.fault = s.fault) : CycleEnd m s (.next u)
  /-- a branch not taken raised on its fall-through; no step decodes at such a `pc` -/
  | fallThroughRaised (hm : m.requiredSetsPc = true) (hle : 256 ≤ s.pc.toNat + 2) :
    CycleEnd m s (.next (s.latch (.outOfRange .pc (s.pc.toNat + 2))))

theorem CycleEnd.advance {m : Mnemonic} {s u : State} (hm : m.requiredSetsPc = false) (hpc : u.pc = s.pc)
    (hfault : u.fault = s.fault) : CycleEnd m s (runCycle (advance (defaultOpc m)) u) := by
  have hop := (setsPc_defaultOpc m).trans hm
  by_cases hlt : s.pc.toNat + operandCount (defaultOpc m) + 1 < 256
  · rw [runCycle_advance hop (by rwa [hpc]), hpc]
    exact .advanced hm hfault hlt
  · have hle := Nat.le_of_not_lt hlt
    rw [runCycle_advance_top hop (by rwa [hpc]), hpc]
    exact .advanceRaised hm hpc hle

/-- A cycle that raises on the register operand `a` before it has written anything. -/
theorem CycleEnd.badOperand {m : Mnemonic} {s : State} {a : Byte} (ha : 8 ≤ a.toNat) :
    CycleEnd m s (.next (s.latch (.outOfRange .reg a.toNat))) :=
  .badRegister rfl rfl ha a.isLt

theorem CycleEnd.aluBinary {m : Mnemonic} (hm : m.requiredSetsPc = false) (f : Byte → Byte → Byte) (a b : Byte)
    (s : State) : CycleEnd m s (runCycle (do aluBinary f a b; Machine.advance (defaultOpc m)) s) := by
  rcases Nat.lt_or_ge a.toNat 8 with ha | ha
  · rcases Nat.lt_or_ge b.toNat 8 with hb | hb
    · rw [runCycle_bind_ok (aluBinary_valid f ha hb s)]
      exact .advance hm rfl rfl
    · rw [runCycle_bind_error (aluBinary_bad_right f ha hb s)]
      exact .badOperand hb
  · rw [runCycle_bind_error (aluBinary_bad_left f b ha s)]
    exact .badOperand ha

theorem CycleEnd.branch {m : Mnemonic} (hm : m.requiredSetsPc = true) (taken : Bool) (a : Byte) (s : State) :
    CycleEnd m s (runCycle (do branch taken a; Machine.advance (defaultOpc m)) s) := by
  have hop := (setsPc_defaultOpc m).trans hm
  cases taken with
  | true =>
    rcases Nat.lt_or_ge a.toNat 8 with ha | ha
    · rw [branch_cycle_taken hop ha s]
      exact .jumped hm rfl
    · rw [branch_cycle_taken_bad _ ha s]
      exact .badOperand ha
  | false =>
    rcases Nat.lt_or_ge (s.pc.toNat + 2) 256 with hpc | hpc
    · rw [branch_cycle_not_taken a hop hpc]
      exact .jumped hm rfl
    · rw [branch_cycle_not_taken_top _ a hpc]
      exact .fallThroughRaised hm hpc

/-- POP into a register that exists leaves `State.popped` and only advances. -/
theorem exec_pop_of_pointed_lt {a : Byte} {s : State} (hr : s.pointed a < 8) :
    exec (.pop a) s = runCycle (advance (defaultOpc .POP)) (s.popped ⟨s.pointed a, hr⟩) := by
  apply runCycle_congr
  rw [Exec.bind_ok (pointerIndex_run a s), Exec.bind_ok (readSp_run s), Exec.bind_ok (memRead_byte _ s),
    Exec.bind_ok (writeReg_valid hr _ s), Exec.bind_ok (readPopNext_run _), Exec.bind_ok (writeSp_run _ _)]
  rfl

theorem State.pointed_lt (s : State) (a : Byte) : s.pointed a < 256 := (s.byteAt a.toNat).isLt

theorem exec_ends (i : Instr) (s : State) : CycleEnd i.mnemonic s (exec i s) := by
  cases i with
  | nop => exact .advance rfl rfl rfl
  | hlt =>
    rw [exec_hlt_eq]
    exact .advance rfl rfl rfl
  | ret =>
    rw [exec_ret_next]
    exact .jumped rfl rfl
  | push a =>
    rcases Nat.lt_or_ge (s.pointed a) 8 with hr | hr
    · rw [exec_push_of_pointed_lt hr]
      exact .advance rfl rfl rfl
    · rw [exec_push_bad hr]
      exact .badRegister rfl rfl hr (s.pointed_lt a)
  | pop a =>
    rcases Nat.lt_or_ge (s.pointed a) 8 with hr | hr
    · rw [exec_pop_of_pointed_lt hr]
      exact .advance rfl rfl rfl
    · rw [exec_pop_bad hr]
      exact .badRegister rfl rfl hr (s.pointed_lt a)
  | prn a =>
    rcases Nat.lt_or_ge a.toNat 8 with ha | ha
    · rw [exec_prn_valid ha]
      exact .advance rfl rfl rfl
    · rw [exec_prn_invalid ha]
      exact .badOperand ha
  | call a b =>
    rcases Nat.lt_or_ge ((s.pushed b).pointed a) 8 with hr | hr
    · rw [exec_call_next hr]
      exact .jumped rfl rfl
    · rw [exec_call_bad hr]
      exact .badRegister rfl rfl hr ((s.pushed b).pointed_lt a)
  | jmp a =>
    rcases Nat.lt_or_ge a.toNat 8 with ha | ha
    · rw [jumpResult a s ha]
      exact .jumped rfl rfl
    · rw [exec_jmp_bad ha]
      exact .badOperand ha
  | jeq a =>
    rw [exec_jeq_eq]
    exact .branch rfl s.e a s
  | jne a =>
    rw [exec_jne_eq]
    exact .branch rfl (!s.e) a s
  | ldi a b =>
    rcases Nat.lt_or_ge a.toNat 8 with ha | ha
    · rw [exec_ldi_valid ha]
      exact .advance rfl rfl rfl
    · rw [exec_ldi_bad b ha]
      exact .badOperand ha
  | add a b => exact .aluBinary rfl (· + ·) a b s
  | sub a b => exact .aluBinary rfl (· - ·) a b s
  | mul a b => exact .aluBinary rfl (· * ·) a b s
  | cmp a b =>
    rcases Nat.lt_or_ge a.toNat 8 with ha | ha
    · rcases Nat.lt_or_ge b.toNat 8 with hb | hb
      · rw [exec_cmp_valid ha hb]
        exact .advance rfl rfl rfl
      · rw [exec_cmp_bad_right ha hb]
        exact .badOperand hb
    · rw [exec_cmp_bad_left b ha]
      exact .badOperand ha

/-- The only errors an instruction raises are `OutOfRange` (60_exceptions.md R213). -/
theorem exec_fault_cases {i : Instr} {s t : State} (h : exec i s = .next t) :
    t.fault = s.fault ∨ ∃ c n, t.fault = some (.outOfRange c n) := by
  have hend := exec_ends i s
  rw [h] at hend
  cases hend with
  | badRegister hpc hout hlow hhigh => exact .inr ⟨_, _, rfl⟩
  | advanced hm hfault hlt => exact .inl hfault
  | advanceRaised hm hpc hle => exact .inr ⟨_, _, rfl⟩
  | jumped hm hfault => exact .inl hfault
  | fallThroughRaised hm hle => exact .inr ⟨_, _, rfl⟩

/-- A cycle that raises leaves `pc` (60_exceptions.md R216; 10_state.md R27). -/
theorem exec_pc_of_fault {i : Instr} {s t : State} (h : exec i s = .next t) (hne : t.fault ≠ s.fault) :
    t.pc = s.pc := by
  have hend := exec_ends i s
  rw [h] at hend
  cases hend with
  | badRegister hpc hout hlow hhigh => exact hpc
  | advanced hm hfault hlt => exact absurd hfault hne
  | advanceRaised hm hpc hle => exact hpc
  | jumped hm hfault => exact absurd hfault hne
  | fallThroughRaised hm hle => rfl

/-- A cycle of an opcode with `sets_pc` = 0 that raises nothing advances (40_cycle_dispatch.md R116). -/
theorem exec_pc_of_advance {i : Instr} {s t : State} (h : exec i s = .next t)
    (hm : i.mnemonic.requiredSetsPc = false) (hfault : t.fault = none) :
    t.pc.toNat = s.pc.toNat + operandCount (defaultOpc i.mnemonic) + 1 := by
  have hend := exec_ends i s
  rw [h] at hend
  cases hend with
  | badRegister hpc hout hlow hhigh => cases hfault
  | advanced _ _ hlt => exact (BitVec.toNat_ofNat _ 8).trans (Nat.mod_eq_of_lt hlt)
  | advanceRaised _ hpc hle => cases hfault
  | jumped hm' => cases hm.symm.trans hm'
  | fallThroughRaised hm' => cases hm.symm.trans hm'

end Sys2Proof.Machine
end

/-! ## Frames (41_alu.md to 45_system.md) -/

section
namespace Sys2Proof

/-- An instruction is its mnemonic with some latches. -/
theorem Instr.eq_withLatches (i : Instr) : ∃ a b, i = i.mnemonic.withLatches a b :=
  ⟨_, _, ((latchesRebuild i).2 0 0).symm⟩

/-- No instruction of a list has a mnemonic that none of the list's has. -/
theorem Instr.mnemonic_ne_of_mem {l : List Instr} {i : Instr} (hi : i ∈ l) {m : Mnemonic}
    (hm : m ∉ l.map Instr.mnemonic) : i.mnemonic ≠ m :=
  fun h => hm (h ▸ List.mem_map_of_mem hi)

namespace Machine

theorem byteAt_ignoresPc (x : Nat) : IgnoresPc (·.byteAt x) := fun _ _ => rfl
theorem byteAt_ignoresFault (x : Nat) : IgnoresFault (·.byteAt x) := fun _ _ => rfl
theorem reg_ignoresPc (j : Fin 8) : IgnoresPc (·.reg j) := fun _ _ => rfl
theorem reg_ignoresFault (j : Fin 8) : IgnoresFault (·.reg j) := fun _ _ => rfl
theorem e_ignoresPc : IgnoresPc State.e := fun _ _ => rfl
theorem e_ignoresFault : IgnoresFault State.e := fun _ _ => rfl

/-! ### One component of the state at a time -/

/-- Of the 15 handlers only CMP's writes `FL` (10_state.md R29). -/
theorem exec_keeps_fl {i : Instr} {s t : State} (hi : i.mnemonic ≠ .CMP) (h : exec i s = .next t) : t.fl = s.fl := by
  have hf : Unwritten State.fl i :=
    { pc := fun _ _ => rfl
      fault := fun _ _ => rfl
      regs := fun _ _ _ => rfl
      mem := fun _ _ _ => rfl
      fl := fun hw => absurd (beq_iff_eq.mp hw) hi
      out := fun _ _ _ => rfl
      running := fun _ _ _ => rfl }
  exact exec_keeps hf h

/-- Of the 15 handlers only PUSH's and CALL's write memory (20_memory.md R51). -/
theorem exec_keeps_mem {i : Instr} {s t : State} (hi : i.writesMem = false) (h : exec i s = .next t) :
    t.mem = s.mem := by
  have hf : Unwritten State.mem i :=
    { pc := fun _ _ => rfl
      fault := fun _ _ => rfl
      regs := fun _ _ _ => rfl
      mem := fun hw => absurd (hi.symm.trans hw) Bool.false_ne_true
      fl := fun _ _ _ => rfl
      out := fun _ _ _ => rfl
      running := fun _ _ _ => rfl }
  exact exec_keeps hf h

theorem exec_keeps_regs {i : Instr} {s t : State} (hi : i.writesRegs = false) (h : exec i s = .next t) :
    t.regs = s.regs := by
  have hf : Unwritten State.regs i :=
    { pc := fun _ _ => rfl
      fault := fun _ _ => rfl
      regs := fun hw => absurd (hi.symm.trans hw) Bool.false_ne_true
      mem := fun _ _ _ => rfl
      fl := fun _ _ _ => rfl
      out := fun _ _ _ => rfl
      running := fun _ _ _ => rfl }
  exact exec_keeps hf h

theorem exec_cmp_keeps {γ : Type} {f : State → γ} {a b : Byte} {s t : State} (hp : IgnoresPc f) (hf : IgnoresFault f)
    (he : ∀ s v, f (s.setE v) = f s) (h : exec (.cmp a b) s = .next t) : f t = f s := by
  refine runCycle_keeps hf ?_ h
  exact (keeps_readOperand.bind fun _ => keeps_readOperand.bind fun _ => fun s => he s _).bind fun _ => keeps_advance hp

/-- No handler writes bits 7:1 of `FL`: CMP writes `E` only (41_alu.md R147). -/
theorem exec_keeps_flagBit {i : Instr} {s t : State} (h : exec i s = .next t) {k : Nat} (hk : 0 < k) (h8 : k < 8) :
    t.fl.getLsbD k = s.fl.getLsbD k := by
  by_cases hi : i.mnemonic = .CMP
  · obtain ⟨a, b, hab⟩ := i.eq_withLatches
    rw [hi] at hab
    subst hab
    exact exec_cmp_keeps (f := (·.fl.getLsbD k)) (fun _ _ => rfl) (fun _ _ => rfl)
      (fun s v => withE_other s.fl v k hk h8) h
  · rw [exec_keeps_fl hi h]

/-- Only PRN appends, and it appends at most one `Prn` event. -/
theorem exec_out_cases {i : Instr} {s t : State} (h : exec i s = .next t) :
    t.out = s.out ∨ ∃ v, t.out = s.out ++ [.prn v] := by
  by_cases hi : i.mnemonic = .PRN
  · obtain ⟨a, b, hab⟩ := i.eq_withLatches
    rw [hi] at hab
    subst hab
    exact (exec_prn_out_cases h).imp_right fun ⟨_, hout⟩ => ⟨_, hout⟩
  · exact .inl (exec_keeps_out hi h)

/-! ### PUSH and CALL -/

/-- Whatever the advance does not write is, after a PUSH, as after the push, or as after the decrement alone if the
pointer cell names no register. -/
theorem exec_push_keeps {γ : Type} {f : State → γ} {a : Byte} {s t : State} (hp : IgnoresPc f) (hf : IgnoresFault f)
    (h : exec (.push a) s = .next t) :
    (s.pointed a < 8 ∧ ∃ v, f t = f (s.pushed v)) ∨
      (8 ≤ s.pointed a ∧ f t = f (s.setReg Config.spIndex s.pushSlot)) := by
  rcases Nat.lt_or_ge (s.pointed a) 8 with hr | hr
  · rw [exec_push_of_pointed_lt hr] at h
    exact .inl ⟨hr, _, runCycle_keeps hf (keeps_advance hp) h⟩
  · rw [exec_push_bad hr] at h
    cases h
    exact .inr ⟨hr, hf _ _⟩

/-- Whatever the jump does not write is, after a CALL, as after the push. -/
theorem exec_call_keeps {γ : Type} {f : State → γ} {a b : Byte} {s t : State} (hp : IgnoresPc f) (hf : IgnoresFault f)
    (h : exec (.call a b) s = .next t) : f t = f (s.pushed b) := by
  rw [exec_call_eq] at h
  refine runCycle_keeps hf ?_ h
  exact keeps_pointerIndex.bind fun _ => keeps_readReg.bind fun _ => (keeps_writePc hp).bind fun _ => keeps_advance hp

/-- Memory changes only by a push, into the cell below `SP` (20_memory.md R51). -/
theorem exec_mem_cases {i : Instr} {s t : State} (h : exec i s = .next t) :
    t.mem = s.mem ∨ (i.mnemonic = .PUSH ∨ i.mnemonic = .CALL) ∧ ∃ v, t.mem = s.mem.write s.pushSlot.toNat v := by
  by_cases hpush : i.mnemonic = .PUSH
  · obtain ⟨a, b, hab⟩ := i.eq_withLatches
    rw [hpush] at hab
    subst hab
    rcases exec_push_keeps (f := State.mem) (fun _ _ => rfl) (fun _ _ => rfl) h with ⟨-, v, hv⟩ | ⟨-, hv⟩
    · exact .inr ⟨.inl rfl, v, hv⟩
    · exact .inl hv
  by_cases hcall : i.mnemonic = .CALL
  · obtain ⟨a, b, hab⟩ := i.eq_withLatches
    rw [hcall] at hab
    subst hab
    exact .inr ⟨.inr rfl, _, exec_call_keeps (f := State.mem) (fun _ _ => rfl) (fun _ _ => rfl) h⟩
  · refine .inl (exec_keeps_mem ?_ h)
    simp [Instr.writesMem, hpush, hcall]

/-- No push writes another register than `SP`. -/
theorem State.pushed_reg_ne (s : State) (v : Byte) {j : Fin 8} (hj : j.val ≠ 7) : (s.pushed v).reg j = s.reg j :=
  State.setReg_reg_ne _ _ fun h => hj (congrArg Fin.val h.symm)

theorem exec_byteAt_of_ne_pushSlot {i : Instr} {s t : State} (h : exec i s = .next t) {x : Nat}
    (hx : x ≠ s.pushSlot.toNat) : t.byteAt x = s.byteAt x := by
  rcases exec_mem_cases h with hmem | ⟨-, v, hmem⟩
  · exact congrArg (Memory.read · x) hmem
  · exact (congrArg (Memory.read · x) hmem).trans (Memory.read_write_ne _ v hx.symm)

/-- Settles O54: by what the push itself leaves. -/
theorem frameOfStackWriters : Obligations.FrameOfStackWriters := by
  intro a b s t i hi h
  refine ⟨fun j hj => ?_, exec_keeps_fl (Instr.mnemonic_ne_of_mem hi (by simp [Instr.mnemonic])) h,
    exec_keeps_running (Instr.mnemonic_ne_of_mem hi (by simp [Instr.mnemonic])) h,
    exec_keeps_out (Instr.mnemonic_ne_of_mem hi (by simp [Instr.mnemonic])) h,
    fun x hx => exec_byteAt_of_ne_pushSlot h hx, ?_, exec_fault_cases h⟩
  · rcases List.mem_pair.mp hi with rfl | rfl
    · rcases exec_push_keeps (reg_ignoresPc j) (reg_ignoresFault j) h with ⟨-, v, hv⟩ | ⟨-, hv⟩
      · exact hv.trans (s.pushed_reg_ne v hj)
      · exact hv.trans (s.setReg_reg_ne _ fun hsp => hj (congrArg Fin.val hsp.symm))
    · exact (exec_call_keeps (reg_ignoresPc j) (reg_ignoresFault j) h).trans (s.pushed_reg_ne b hj)
  · rintro rfl hr x
    rcases exec_push_keeps (byteAt_ignoresPc x) (byteAt_ignoresFault x) h with ⟨hlt, -⟩ | ⟨-, hv⟩
    · exact absurd hlt (Nat.not_lt.mpr hr)
    · exact hv

/-! ### POP and RET -/

theorem State.popped_reg_ne (s : State) {i j : Fin 8} (hi : j.val ≠ i.val) (hj : j.val ≠ 7) :
    (s.popped i).reg j = s.reg j := by
  rw [State.popped, State.setReg_reg_ne _ _ fun h => hj (congrArg Fin.val h.symm),
    State.setReg_reg_ne _ _ fun h => hi (congrArg Fin.val h.symm)]

theorem exec_pop_reg_ne {a : Byte} {s t : State} (h : exec (.pop a) s = .next t) {j : Fin 8} (hj : j.val ≠ s.pointed a)
    (hsp : j.val ≠ 7) : t.reg j = s.reg j := by
  rcases Nat.lt_or_ge (s.pointed a) 8 with hr | hr
  · rw [exec_pop_of_pointed_lt hr] at h
    exact (runCycle_keeps (reg_ignoresFault j) (keeps_advance (reg_ignoresPc j)) h).trans (s.popped_reg_ne hj hsp)
  · rw [exec_pop_bad hr] at h
    cases h
    rfl

theorem exec_keeps_byteAt {i : Instr} {s t : State} (hi : i.writesMem = false) (h : exec i s = .next t) (x : Nat) :
    t.byteAt x = s.byteAt x :=
  congrArg (Memory.read · x) (exec_keeps_mem hi h)

/-- Settles O53. -/
theorem frameOfStackReaders : Obligations.FrameOfStackReaders := by
  intro a s t
  constructor
  · intro h
    exact ⟨fun j hj hsp => exec_pop_reg_ne h hj hsp, exec_keeps_fl (by simp [Instr.mnemonic]) h,
      exec_keeps_running (by simp [Instr.mnemonic]) h, exec_keeps_out (by simp [Instr.mnemonic]) h,
      exec_keeps_byteAt rfl h, exec_fault_cases h⟩
  · intro h
    rw [exec_ret_next] at h
    cases h
    exact ⟨fun j hj => s.setReg_reg_ne _ fun hsp => hj (congrArg Fin.val hsp.symm), rfl, rfl, rfl, fun _ => rfl, rfl⟩

/-! ### ADD, SUB, MUL, LDI -/

theorem keeps_writeOperand_reg_ne {j : Fin 8} {a : Byte} (hj : j.val ≠ a.toNat) {v : Byte} :
    (writeOperand a v).Keeps (·.reg j) := by
  intro s
  rcases Nat.lt_or_ge a.toNat 8 with ha | ha
  · rw [Exec.endState_of_ok (writeOperand_valid ha v s)]
    exact s.setReg_reg_ne v fun h => hj (congrArg Fin.val h.symm)
  · rw [Exec.endState_of_error (writeOperand_invalid ha v s)]

theorem keeps_aluBinary_reg_ne {j : Fin 8} {a : Byte} (hj : j.val ≠ a.toNat) {f : Byte → Byte → Byte} {b : Byte} :
    (aluBinary f a b).Keeps (·.reg j) :=
  keeps_readOperand.bind fun _ => keeps_readOperand.bind fun _ => keeps_writeOperand_reg_ne hj

/-- Settles O51: the handlers write one register and nothing else. -/
theorem frameOfRegisterWriters : Obligations.FrameOfRegisterWriters := by
  intro a b s t i hi h
  refine ⟨fun j hj => ?_, exec_keeps_fl (Instr.mnemonic_ne_of_mem hi (by simp [Instr.mnemonic])) h,
    exec_keeps_running (Instr.mnemonic_ne_of_mem hi (by simp [Instr.mnemonic])) h,
    exec_keeps_out (Instr.mnemonic_ne_of_mem hi (by simp [Instr.mnemonic])) h, exec_keeps_byteAt ?_ h,
    exec_fault_cases h⟩
  · have keeps {c : Exec Unit} {op : Byte} (hc : c.Keeps (·.reg j))
        (h : runCycle (do c; advance op) s = .next t) : t.reg j = s.reg j :=
      runCycle_keeps (reg_ignoresFault j) (hc.bind fun _ => keeps_advance (reg_ignoresPc j)) h
    simp only [List.mem_cons, List.not_mem_nil, or_false] at hi
    rcases hi with rfl | rfl | rfl | rfl
    · exact keeps (keeps_aluBinary_reg_ne hj) h
    · exact keeps (keeps_aluBinary_reg_ne hj) h
    · exact keeps (keeps_aluBinary_reg_ne hj) h
    · exact keeps (keeps_writeOperand_reg_ne hj) h
  · have hmem : ∀ i ∈ [Instr.add a b, .sub a b, .mul a b, .ldi a b], i.writesMem = false := by
      simp [Instr.writesMem, Instr.mnemonic]
    exact hmem i hi

/-! ### NOP, HLT, PRN, CMP, JMP, JEQ, JNE -/

/-- Settles O52: by the frame of each component; the seven have seven mnemonics. -/
theorem frameOfRegisterReaders : Obligations.FrameOfRegisterReaders := by
  intro a b s t i hi h
  have hframe : ∀ i ∈ [Instr.nop, .hlt, .prn a, .cmp a b, .jmp a, .jeq a, .jne a],
      i.writesRegs = false ∧ i.writesMem = false := by
    simp [Instr.writesRegs, Instr.writesMem, Instr.mnemonic]
  obtain ⟨hregs, hmem⟩ := hframe i hi
  have hne {j : Instr} (hj : j ∈ [Instr.nop, .hlt, .prn a, .cmp a b, .jmp a, .jeq a, .jne a]) (hij : i ≠ j) :
      i.mnemonic ≠ j.mnemonic :=
    fun hm => hij (List.inj_on_of_nodup_map (by simp [Instr.mnemonic]) hi hj hm)
  exact ⟨fun j => congrArg (·[j]) (exec_keeps_regs hregs h), exec_keeps_byteAt hmem h,
    fun hi => exec_keeps_fl (hne (j := .cmp a b) (by simp) hi) h, fun _ hk h8 => exec_keeps_flagBit h hk h8,
    fun hi => exec_keeps_running (hne (j := .hlt) (by simp) hi) h,
    fun hi => exec_keeps_out (hne (j := .prn a) (by simp) hi) h, exec_out_cases h, exec_fault_cases h⟩

end Machine

end Sys2Proof
end

/-! ## What every step keeps (10_state.md, 20_memory.md, 60_exceptions.md) -/

section
namespace Sys2Proof.Machine

/-- A step writes nothing but the fault latch, or it is the cycle of a decoded instruction. -/
theorem stepWith_latch_or_exec {opc : OpcodeMap} {s t : State} (h : stepWith opc s = .next t) :
    (∃ k, t = { s with fault := k }) ∨
      ∃ m, opc m = s.byteAt s.pc.toNat ∧
        exec (m.withLatches (s.byteAt (s.pc.toNat + 1)) (s.byteAt (s.pc.toNat + 2))) s = .next t := by
  rcases stepWith_cases opc s with ⟨-, hs⟩ | ⟨-, -, ⟨-, hs⟩ | ⟨-, hs⟩ | ⟨-, m, hm, hs⟩⟩ <;> rw [hs] at h
  · cases h
    exact .inl ⟨s.fault, rfl⟩
  · cases h
    exact .inl ⟨_, rfl⟩
  · cases h
    exact .inl ⟨_, rfl⟩
  · exact .inr ⟨m, hm, h⟩

/-! ### The output stream and memory -/

/-- Settles O25. -/
theorem outputIsAppendedOnlyByPrn : Obligations.OutputIsAppendedOnlyByPrn :=
  fun _ _ _ _ h => stepWith_out_cases h

/-- Settles O26: `exec_mem_cases` names the two writers, and their write leaves every cell but the push slot. -/
theorem onlyPushAndCallWriteMemory : Obligations.OnlyPushAndCallWriteMemory := by
  intro opc s t x _ h hne
  rcases stepWith_latch_or_exec h with ⟨k, rfl⟩ | ⟨m, hm, hexec⟩
  · exact absurd rfl hne
  · have hx : x = s.pushSlot.toNat := not_not.mp fun hx => hne (exec_byteAt_of_ne_pushSlot hexec hx)
    rcases exec_mem_cases hexec with hmem | ⟨hwriter, -⟩
    · exact absurd (congrArg (Memory.read · x) hmem) hne
    · rw [m.withLatches_mnemonic] at hwriter
      exact ⟨hwriter.imp (fun h => hm.symm.trans (congrArg opc h)) fun h => hm.symm.trans (congrArg opc h), hx⟩

/-! ### Reset and the invariant -/

/-- Settles O16. -/
theorem resetLeavesEverythingZero : Obligations.ResetLeavesEverythingZero := by
  refine ⟨fun i => ?_, fun _ => rfl, rfl, rfl, rfl, rfl, rfl, rfl⟩
  exact Vector.getElem_replicate i.isLt

/-- Settles O19. -/
theorem resetMeetsTheInvariant : Obligations.ResetMeetsTheInvariant := ⟨Memory.reset_wf, rfl⟩

theorem State.Inv.with_mem {s : State} (hs : s.Inv) {m : Memory} (hm : m.wf = true) : State.Inv { s with mem := m } :=
  ⟨hm, hs.flags⟩

theorem State.Inv.with_fault {s : State} (hs : s.Inv) (k : Option Fault) : State.Inv { s with fault := k } :=
  ⟨hs.mem, hs.flags⟩

/-- Settles O20: both memories a load can leave are canonical, and it leaves `FL`. -/
theorem loadKeepsTheInvariant : Obligations.LoadKeepsTheInvariant := by
  intro image s hs
  rcases Nat.lt_or_ge 256 image.length with hlarge | hfits
  · rw [load_of_too_large hlarge]
    exact (hs.with_mem (failedLoadMemory_wf image)).with_fault _
  · rw [load_of_fits hfits]
    exact hs.with_mem (Memory.writeList_wf hs.mem image (by rwa [Nat.zero_add]))

/-- The unused bits of `FL` are its bits 7:1 (10_state.md R28). -/
theorem unusedFlags_congr {p q : Byte} (h : ∀ k, 0 < k → k < 8 → p.getLsbD k = q.getLsbD k) :
    p &&& 0xFE#8 = q &&& 0xFE#8 := by
  refine BitVec.eq_of_getLsbD_eq fun k hk => ?_
  rw [BitVec.getLsbD_and, BitVec.getLsbD_and]
  rcases Nat.eq_zero_or_pos k with rfl | hpos
  · rw [show (0xFE#8).getLsbD 0 = false from rfl, Bool.and_false, Bool.and_false]
  · rw [h k hpos hk]

theorem exec_keeps_inv {i : Instr} {s t : State} (hs : s.Inv) (h : exec i s = .next t) : t.Inv := by
  constructor
  · rcases exec_mem_cases h with hmem | ⟨-, v, hmem⟩ <;> rw [hmem]
    · exact hs.mem
    · exact Memory.write_wf hs.mem v s.pushSlot.isLt
  · rw [unusedFlags_congr fun k hk h8 => exec_keeps_flagBit h hk h8]
    exact hs.flags

/-- Settles O21: the only write to memory is the push, inside the address space, and the only write to `FL` is CMP's to
its bit 0. -/
theorem everyStepKeepsTheInvariant : Obligations.EveryStepKeepsTheInvariant := by
  intro opc s t hs h
  rcases stepWith_latch_or_exec h with ⟨k, rfl⟩ | ⟨m, -, hexec⟩
  · exact hs.with_fault k
  · exact exec_keeps_inv hs hexec

/-! ### The fatal errors -/

theorem operandCount_defaultOpc_le (m : Mnemonic) : operandCount (defaultOpc m) ≤ 2 := by
  cases m <;> decide

/-- An instruction that raises, from where a cycle can decode it, raises on a register index above 7 or on the advance
from 253; neither PRN's event nor `pc` is then written. -/
theorem exec_raised {i : Instr} {s t : State} (hpc : s.pc.toNat < 254) (h : exec i s = .next t)
    (hne : t.fault ≠ s.fault) :
    t.out = s.out ∧
      ((∃ r, t.fault = some (.outOfRange .reg r) ∧ 8 ≤ r ∧ r < 256) ∨
        (t.fault = some (.outOfRange .pc 256) ∧ s.pc.toNat = 253)) := by
  have hend := exec_ends i s
  rw [h] at hend
  cases hend with
  | badRegister _ hout hlow hhigh => exact ⟨hout, .inl ⟨_, rfl, hlow, hhigh⟩⟩
  | advanced _ hfault => exact absurd hfault hne
  | advanceRaised hm _ hle =>
    have hcount := operandCount_defaultOpc_le i.mnemonic
    have htop : s.pc.toNat = 253 ∧ operandCount (defaultOpc i.mnemonic) = 2 := by omega
    have hprn : i.mnemonic ≠ .PRN := fun hi => by
      rw [hi] at htop
      exact absurd htop.2 (by decide)
    refine ⟨exec_keeps_out hprn h, .inr ⟨?_, htop.1⟩⟩
    rw [htop.1, htop.2]
    rfl
  | jumped _ hfault => exact absurd hfault hne
  | fallThroughRaised _ hle => omega

/-- Settles O27: the cycle's own two errors, and those of `exec_raised`. -/
theorem everyLatchedFaultIsAccountedFor : Obligations.EveryLatchedFaultIsAccountedFor := by
  intro opc s t h hne
  have hrunning : t.running = s.running :=
    (stepWith_running_cases h).resolve_right fun ⟨_, _, hs, ht⟩ => hne (ht.trans hs.symm)
  cases he : s.enabled with
  | false =>
    rw [stepWith_idle opc he] at h
    cases h
    exact absurd rfl hne
  | true =>
    obtain ⟨hr, hf⟩ := s.enabled_iff.mp he
    rcases Nat.lt_or_ge s.pc.toNat 254 with hpc | hpc
    · have hinside : s.pc.toNat + 2 < 256 := Nat.add_lt_add_right hpc 2
      rcases decodeWith_cases opc (s.byteAt s.pc.toNat) (s.byteAt (s.pc.toNat + 1)) (s.byteAt (s.pc.toNat + 2)) with
        ⟨m, -, hd⟩ | hd
      · rw [stepWith_decoded he hinside hd] at h
        obtain ⟨hout, hrecord⟩ := exec_raised hpc h hne
        refine ⟨hf, hr, hrunning.trans hr, exec_pc_of_fault h hne, fun hcmp => exec_keeps_fl ?_ h, hout, ?_⟩
        · rw [m.withLatches_mnemonic]
          rintro rfl
          exact hcmp _ _ hd
        · rcases hrecord with ⟨r, hreg, hlow, hhigh⟩ | htop
          · exact .inr (.inr (.inl ⟨r, hreg, hlow, hhigh, hpc⟩))
          · exact .inr (.inr (.inr htop))
      · rw [stepWith_rejected he hinside hd] at h
        cases h
        exact ⟨hf, hr, hr, rfl, fun _ => rfl, rfl, .inr (.inl ⟨rfl, hpc⟩)⟩
    · rw [stepWith_top opc he hpc] at h
      cases h
      exact ⟨hf, hr, hr, rfl, fun _ => rfl, rfl, .inl ⟨rfl, hpc⟩⟩

end Sys2Proof.Machine
end

/-! ## Where `pc` stands after a cycle (10_state.md R26) -/

section
namespace Sys2Proof.Machine

/-- An advance past the operands that the table of instructions requires. -/
theorem exec_pc_of_requiredCount {i : Instr} {s t : State} {c : Nat} (h : exec i s = .next t)
    (hm : i.mnemonic.requiredSetsPc = false) (hc : i.mnemonic.requiredCount = some c) (hfault : t.fault = none) :
    t.pc.toNat = s.pc.toNat + c + 1 := by
  rw [exec_pc_of_advance h hm hfault, defaultOpcodeMapIsValid.count _ _ hc]

theorem exec_jmp_pc {a : Byte} {s t : State} (h : exec (.jmp a) s = .next t) (hfault : t.fault = none) :
    ∃ ha : a.toNat < 8, t.pc = s.regs[a.toNat] := by
  rcases Nat.lt_or_ge a.toNat 8 with ha | ha
  · rw [jumpResult a s ha] at h
    cases h
    exact ⟨ha, rfl⟩
  · rw [exec_jmp_bad ha] at h
    cases h
    cases hfault

theorem branch_cycle_pc_taken {op a : Byte} {s t : State} (hop : setsPc op = true)
    (h : runCycle (do branch true a; advance op) s = .next t) (hfault : t.fault = none) :
    ∃ ha : a.toNat < 8, t.pc = s.regs[a.toNat] := by
  rcases Nat.lt_or_ge a.toNat 8 with ha | ha
  · rw [branch_cycle_taken hop ha] at h
    cases h
    exact ⟨ha, rfl⟩
  · rw [branch_cycle_taken_bad _ ha] at h
    cases h
    cases hfault

theorem branch_cycle_pc_not_taken {op a : Byte} {s t : State} (hop : setsPc op = true)
    (h : runCycle (do branch false a; advance op) s = .next t) (hfault : t.fault = none) :
    t.pc.toNat = s.pc.toNat + 2 := by
  rcases Nat.lt_or_ge (s.pc.toNat + 2) 256 with hpc | hpc
  · rw [branch_cycle_not_taken a hop hpc] at h
    cases h
    exact (BitVec.toNat_ofNat _ 8).trans (Nat.mod_eq_of_lt hpc)
  · rw [branch_cycle_not_taken_top _ a hpc] at h
    cases h
    cases hfault

/-- CALL's target, in terms of the state it leaves: the pointer cell and the register after the push. -/
theorem exec_call_pc {a b : Byte} {s t : State} (h : exec (.call a b) s = .next t) (hfault : t.fault = none) :
    ∃ hr : (t.byteAt a.toNat).toNat < 8, t.pc = t.regs[(t.byteAt a.toNat).toNat] := by
  rcases Nat.lt_or_ge ((s.pushed b).pointed a) 8 with hr | hr
  · rw [exec_call_next hr] at h
    cases h
    exact ⟨hr, rfl⟩
  · rw [exec_call_bad hr] at h
    cases h
    cases hfault

/-- Settles O15: the advance from the frame of every instruction, the jumps one by one. -/
theorem pcAfterEachCycle : Obligations.PcAfterEachCycle := by
  intro opc s t i hopc hrun hfault hpc hd h
  rw [stepWith_decoded (s.enabled_iff.mpr ⟨hrun, hfault⟩) hpc hd] at h
  have hbyte : s.byteAt s.pc.toNat = opc i.mnemonic := by
    obtain ⟨m, hm, rfl⟩ := decodeWith_ok hd
    rw [m.withLatches_mnemonic, hm]
  have hsets : setsPc (opc i.mnemonic) = i.mnemonic.requiredSetsPc := hopc.sets _
  refine ⟨fun hne => exec_pc_of_fault h (by rwa [hfault]), fun hnone hadv => ?_, fun hnone => ?_⟩
  · rw [hbyte] at hadv ⊢
    rw [hopc.operandCount_eq ((hopc.setsPc_eq _).symm.trans hadv)]
    exact exec_pc_of_advance h (hsets.symm.trans hadv) hnone
  · cases i with
    | nop | hlt | prn | push | pop | ldi | add | sub | mul | cmp =>
      exact ⟨hsets, exec_pc_of_requiredCount h rfl rfl hnone⟩
    | jmp a => exact ⟨hsets, exec_jmp_pc h hnone⟩
    | jeq a =>
      refine ⟨hsets, ?_⟩
      rw [exec_jeq_eq] at h
      cases he : s.e with
      | true => exact branch_cycle_pc_taken rfl (he ▸ h) hnone
      | false => exact branch_cycle_pc_not_taken rfl (he ▸ h) hnone
    | jne a =>
      refine ⟨hsets, ?_⟩
      rw [exec_jne_eq] at h
      cases he : s.e with
      | true => exact branch_cycle_pc_not_taken rfl (he ▸ h) hnone
      | false => exact branch_cycle_pc_taken rfl (he ▸ h) hnone
    | call a b => exact ⟨hsets, exec_call_pc h hnone⟩
    | ret =>
      rw [exec_ret_next] at h
      cases h
      exact ⟨hsets, rfl⟩

end Sys2Proof.Machine
end

/-! ## Who reads the flags (10_state.md R29)

A part of a cycle is blind to `FL` when another value of `FL` at its start changes nothing but the `FL` of the state in
which it ends. Like `Exec.Keeps` this is closed under sequencing, so a handler that only calls blind primitives is
blind; `readE` is the one primitive that is not. -/

section
namespace Sys2Proof.Machine

/-- Two results that differ in nothing but the `FL` of the state. -/
def SameButFl {α : Type} : EStateM.Result Fault State α → EStateM.Result Fault State α → Prop
  | .ok v t, .ok w u => v = w ∧ u = { t with fl := u.fl }
  | .error k t, .error l u => k = l ∧ u = { t with fl := u.fl }
  | _, _ => False

def Exec.BlindToFl {α : Type} (c : Exec α) : Prop := ∀ s f, SameButFl (c.run s) (c.run { s with fl := f })

section
variable {α β : Type}

theorem Exec.BlindToFl.pure (v : α) : Exec.BlindToFl (pure v) := fun _ _ => ⟨rfl, rfl⟩

theorem Exec.BlindToFl.bind {x : Exec α} {g : α → Exec β} (hx : x.BlindToFl) (hg : ∀ v, (g v).BlindToFl) :
    (x >>= g).BlindToFl := by
  intro s f
  have hs := hx s f
  cases h : x.run s with
  | ok v t =>
    cases h' : x.run { s with fl := f } with
    | ok w u =>
      rw [h, h'] at hs
      obtain ⟨rfl, hu⟩ := hs
      rw [bind_ok h, bind_ok h', hu]
      exact hg v t u.fl
    | error l u =>
      rw [h, h'] at hs
      exact hs.elim
  | error k t =>
    cases h' : x.run { s with fl := f } with
    | ok w u =>
      rw [h, h'] at hs
      exact hs.elim
    | error l u =>
      rw [h, h'] at hs
      rw [bind_error h, bind_error h']
      exact hs

theorem blind_readReg {i : Nat} : (readReg i).BlindToFl := by
  intro s f
  rcases Nat.lt_or_ge i 8 with h | h
  · rw [readReg_valid h, readReg_valid h]
    exact ⟨rfl, rfl⟩
  · rw [readReg_invalid h, readReg_invalid h]
    exact ⟨rfl, rfl⟩

theorem blind_writeReg {i : Nat} {v : Byte} : (writeReg i v).BlindToFl := by
  intro s f
  rcases Nat.lt_or_ge i 8 with h | h
  · rw [writeReg_valid h, writeReg_valid h]
    exact ⟨rfl, rfl⟩
  · rw [writeReg_invalid h, writeReg_invalid h]
    exact ⟨rfl, rfl⟩

theorem blind_memRead {a : Nat} : (memRead a).BlindToFl := by
  intro s f
  rcases Nat.lt_or_ge a 256 with h | h
  · rw [memRead_inside h, memRead_inside h]
    exact ⟨rfl, rfl⟩
  · rw [memRead_outside h, memRead_outside h]
    exact ⟨rfl, rfl⟩

theorem blind_memWrite_byte {a v : Byte} : (memWrite a.toNat v).BlindToFl := by
  intro s f
  rw [memWrite_byte, memWrite_byte]
  exact ⟨rfl, rfl⟩

theorem blind_writePc {n : Nat} : (writePc n).BlindToFl := by
  intro s f
  rcases Nat.lt_or_ge n 256 with h | h
  · rw [writePc_inside h, writePc_inside h]
    exact ⟨rfl, rfl⟩
  · rw [writePc_outside h, writePc_outside h]
    exact ⟨rfl, rfl⟩

theorem blind_readPc : readPc.BlindToFl := fun _ _ => ⟨rfl, rfl⟩
theorem blind_readSp : readSp.BlindToFl := fun _ _ => ⟨rfl, rfl⟩
theorem blind_writeSp {v : Byte} : (writeSp v).BlindToFl := fun _ _ => ⟨rfl, rfl⟩
theorem blind_readPushSlot : readPushSlot.BlindToFl := fun _ _ => ⟨rfl, rfl⟩
theorem blind_readPopNext : readPopNext.BlindToFl := fun _ _ => ⟨rfl, rfl⟩
theorem blind_writeE {v : Bool} : (writeE v).BlindToFl := fun _ _ => ⟨rfl, rfl⟩
theorem blind_emit {e : Event} : (emit e).BlindToFl := fun _ _ => ⟨rfl, rfl⟩
theorem blind_halt : halt.BlindToFl := fun _ _ => ⟨rfl, rfl⟩

theorem blind_pointerIndex {a : Byte} : (pointerIndex a).BlindToFl := blind_memRead.bind fun r => .pure r.toNat

theorem blind_advance {op : Byte} : (advance op).BlindToFl := by
  cases h : setsPc op with
  | true =>
    rw [advance, if_pos h]
    exact .pure ()
  | false =>
    rw [advance, if_neg (by simp [h])]
    exact blind_readPc.bind fun _ => blind_writePc

theorem blind_aluBinary {f : Byte → Byte → Byte} {a b : Byte} : (aluBinary f a b).BlindToFl :=
  blind_readReg.bind fun _ => blind_readReg.bind fun _ => blind_writeReg

theorem blind_aluCmp {a b : Byte} : (aluCmp a b).BlindToFl :=
  blind_readReg.bind fun _ => blind_readReg.bind fun _ => blind_writeE

end

theorem runCycle_blindToFl {c : Exec Unit} (hc : c.BlindToFl) {s t u : State} {f : Byte}
    (ht : runCycle c s = .next t) (hu : runCycle c { s with fl := f } = .next u) : u = { t with fl := u.fl } := by
  have hs := hc s f
  cases h : c.run s with
  | ok _ x =>
    cases h' : c.run { s with fl := f } with
    | ok _ y =>
      rw [runCycle_ok h] at ht
      rw [runCycle_ok h'] at hu
      rw [h, h'] at hs
      cases ht
      cases hu
      exact hs.2
    | error l y =>
      rw [h, h'] at hs
      exact hs.elim
  | error k x =>
    cases h' : c.run { s with fl := f } with
    | ok _ y =>
      rw [h, h'] at hs
      exact hs.elim
    | error l y =>
      rw [runCycle_error h] at ht
      rw [runCycle_error h'] at hu
      rw [h, h'] at hs
      cases ht
      cases hu
      obtain ⟨rfl, hy⟩ := hs
      exact congrArg (State.latch · k) hy

/-- Of the 15 handlers only those of JEQ and JNE read `FL` (10_state.md R29). -/
theorem exec_blindToFl {i : Instr} {s t u : State} {f : Byte} (hjeq : ∀ a, i ≠ .jeq a) (hjne : ∀ a, i ≠ .jne a)
    (ht : exec i s = .next t) (hu : exec i { s with fl := f } = .next u) : u = { t with fl := u.fl } := by
  have blind {c : Exec Unit} (hc : c.BlindToFl) (ht : runCycle c s = .next t)
      (hu : runCycle c { s with fl := f } = .next u) : u = { t with fl := u.fl } := runCycle_blindToFl hc ht hu
  cases i with
  | nop => exact blind blind_advance ht hu
  | hlt => exact blind (blind_halt.bind fun _ => blind_advance) ht hu
  | ret =>
    exact blind (blind_readSp.bind fun _ => blind_memRead.bind fun _ => blind_writePc.bind fun _ =>
      blind_readPopNext.bind fun _ => blind_writeSp.bind fun _ => blind_advance) ht hu
  | push a =>
    exact blind (blind_pointerIndex.bind fun _ => blind_readPushSlot.bind fun _ => blind_writeSp.bind fun _ =>
      blind_readReg.bind fun _ => blind_memWrite_byte.bind fun _ => blind_advance) ht hu
  | pop a =>
    exact blind (blind_pointerIndex.bind fun _ => blind_readSp.bind fun _ => blind_memRead.bind fun _ =>
      blind_writeReg.bind fun _ => blind_readPopNext.bind fun _ => blind_writeSp.bind fun _ => blind_advance) ht hu
  | prn a => exact blind (blind_readReg.bind fun _ => blind_emit.bind fun _ => blind_advance) ht hu
  | call a b =>
    exact blind (blind_readPushSlot.bind fun _ => blind_memWrite_byte.bind fun _ => blind_writeSp.bind fun _ =>
      blind_pointerIndex.bind fun _ => blind_readReg.bind fun _ => blind_writePc.bind fun _ => blind_advance) ht hu
  | jmp a => exact blind (blind_readReg.bind fun _ => blind_writePc.bind fun _ => blind_advance) ht hu
  | jeq a => exact absurd rfl (hjeq a)
  | jne a => exact absurd rfl (hjne a)
  | ldi a b => exact blind (blind_writeReg.bind fun _ => blind_advance) ht hu
  | add a b => exact blind (blind_aluBinary.bind fun _ => blind_advance) ht hu
  | sub a b => exact blind (blind_aluBinary.bind fun _ => blind_advance) ht hu
  | mul a b => exact blind (blind_aluBinary.bind fun _ => blind_advance) ht hu
  | cmp a b => exact blind (blind_aluCmp.bind fun _ => blind_advance) ht hu

/-! ### Who writes the flags -/

theorem exec_cmp_e {a b : Byte} {s t : State} (ha : a.toNat < 8) (hb : b.toNat < 8) (h : exec (.cmp a b) s = .next t) :
    t.e = decide (s.reg ⟨a.toNat, ha⟩ = s.reg ⟨b.toNat, hb⟩) := by
  rw [exec_cmp_valid ha hb] at h
  rw [runCycle_keeps e_ignoresFault (keeps_advance e_ignoresPc) h, State.setE_e, equalFlag_eq_decide]

theorem stepWith_keeps_fl {opc : OpcodeMap} {s t : State} (h : stepWith opc s = .next t)
    (hop : s.byteAt s.pc.toNat ≠ opc .CMP) : t.fl = s.fl := by
  rcases stepWith_latch_or_exec h with ⟨k, rfl⟩ | ⟨m, hm, hexec⟩
  · rfl
  · refine exec_keeps_fl ?_ hexec
    rw [m.withLatches_mnemonic]
    rintro rfl
    exact hop hm.symm

/-- `FL` stays over a run that fetches no CMP. -/
theorem stepsWith_keeps_fl {opc : OpcodeMap} {k : Nat} {s t : State}
    (hop : ∀ j u, j < k → stepsWith opc j s = some u → u.byteAt u.pc.toNat ≠ opc .CMP)
    (h : stepsWith opc k s = some t) : t.fl = s.fl := by
  induction k generalizing s with
  | zero =>
    cases h
    rfl
  | succ k ih =>
    obtain ⟨u, hu⟩ := stepWith_next opc s
    rw [stepsWith_succ_of_next hu] at h
    have hrest : t.fl = u.fl := by
      refine ih (fun j v hj hv => hop (j + 1) v (Nat.succ_lt_succ hj) ?_) h
      rwa [stepsWith_succ_of_next hu]
    exact hrest.trans (stepWith_keeps_fl hu (hop 0 s k.succ_pos rfl))

theorem Instr.mnemonic_ne_cmp {i : Instr} (hi : ∀ a b, i ≠ .cmp a b) : i.mnemonic ≠ .CMP := by
  intro hm
  obtain ⟨a, b, hab⟩ := i.eq_withLatches
  rw [hm] at hab
  exact hi a b hab

/-- Settles O23: one lemma for each of its four clauses. -/
theorem onlyCmpWritesAndOnlyBranchesReadTheFlags : Obligations.OnlyCmpWritesAndOnlyBranchesReadTheFlags := by
  refine ⟨fun i s t hi h => ?_, fun a b s t ha hb h => ?_, fun i s t u f hjeq hjne ht hu => ?_,
    fun opc s t k _ hop h => ?_⟩
  · exact exec_keeps_fl (Instr.mnemonic_ne_cmp hi) h
  · exact ⟨exec_cmp_e ha hb h, fun k hk h8 => exec_keeps_flagBit h hk h8⟩
  · exact exec_blindToFl hjeq hjne ht hu
  · exact stepsWith_keeps_fl hop h

end Sys2Proof.Machine
end

/-! ## Pairs of stack instructions (43_stack.md R173; 44_control.md R186) -/

section
namespace Sys2Proof.Machine

/-- What a register reads as after a push. -/
theorem State.pushed_reg (s : State) (v : Byte) {r : Nat} (hr : r < 8) :
    (s.pushed v).reg ⟨r, hr⟩ = if r = 7 then s.regs[7] - 1 else s.regs[r] :=
  s.decremented_reg hr

theorem State.pushed_byteAt_ne (s : State) (v : Byte) {x : Nat} (hx : x ≠ (s.regs[7] - 1).toNat) :
    (s.pushed v).byteAt x = s.byteAt x :=
  s.setByte_byteAt_ne v hx.symm

theorem State.pushed_pointed_ne (s : State) (v : Byte) {a : Byte} (ha : a ≠ s.regs[7] - 1) :
    (s.pushed v).pointed a = s.pointed a :=
  congrArg BitVec.toNat (s.pushed_byteAt_ne v fun h => ha (BitVec.eq_of_toNat_eq h))

/-- Settles O58: the slot holds the pushed byte, and the increment gives back the old `SP`. -/
theorem returnResumesAtThePushedByte : Obligations.ReturnResumesAtThePushedByte := by
  rintro a b s r hr hwf hptr ha
  have hread : r = ((s.mem.write (s.regs[7] - 1).toNat b).read a.toNat).toNat :=
    hptr.trans (s.pushed_pointed_ne b ha).symm
  refine ⟨_, callResult a b s _ r hr rfl hread, rfl, fun u hsp hslot => ⟨_, exec_ret_next u, ?_, ?_⟩⟩
  · have husp : u.sp = s.regs[7] - 1 := hsp.trans (s.pushed_sp b)
    exact (congrArg (fun sp : Byte => u.byteAt sp.toNat) husp).trans
      (hslot.trans (Memory.read_write_same hwf _ b))
  · have husp : u.regs[7] = s.regs[7] - 1 := hsp.trans (s.pushed_sp b)
    exact (u.setReg_sp _).trans ((congrArg (· + 1) husp).trans (BitVec.sub_add_cancel _ _))

/-! ### PUSH, then POP through the same pointer cell -/

/-- Popping what has just been pushed from register `i` restores every register, `SP` included. -/
theorem State.popped_pushed_regs {s : State} (hwf : s.mem.wf = true) (i : Fin 8) :
    ((s.pushed ((s.setReg Config.spIndex s.pushSlot).reg i)).popped i).regs = s.regs := by
  refine State.regs_ext fun j => ?_
  by_cases hj : j = Config.spIndex
  · subst hj
    refine (State.popped_sp _ i).trans ?_
    rw [State.pushed_top hwf, State.pushed_popNext]
    split
    · next hi =>
      rw [hi, State.setReg_reg_same]
      exact BitVec.sub_add_cancel s.sp 1
    · rfl
  · by_cases hij : j = i
    · subst hij
      rw [State.popped_reg, if_neg hj, State.pushed_top hwf, State.setReg_reg_ne _ _ (Ne.symm hj)]
    · rw [State.popped_reg_ne _ (fun h => hij (Fin.ext h)) fun h => hj (Fin.ext h),
        State.pushed_reg_ne _ _ fun h => hj (Fin.ext h)]

/-- A step below address 254 whose opcode byte is the map's for `m` is the cycle of `m`. -/
theorem stepWith_own {opc : OpcodeMap} (hopc : opc.Valid) {s : State} (he : s.enabled = true)
    (hpc : s.pc.toNat + 2 < 256) {m : Mnemonic} (hm : s.byteAt s.pc.toNat = opc m) :
    stepWith opc s = exec (m.withLatches (s.byteAt (s.pc.toNat + 1)) (s.byteAt (s.pc.toNat + 2))) s :=
  stepWith_decoded he hpc (hm ▸ decodeWith_own hopc m _ _)

/-- A step that fetches `POP [p]` at address `n`, where cell `p` names register `r`. -/
theorem stepWith_pop {opc : OpcodeMap} (hopc : opc.Valid) {s : State} {p : Byte} {n r : Nat} (he : s.enabled = true)
    (hpc : s.pc.toNat = n) (hn : n + 2 < 256) (hop : s.byteAt n = opc .POP) (harg : s.byteAt (n + 1) = p)
    (hptr : s.pointed p = r) (hr : r < 8) :
    stepWith opc s = .next { s.popped ⟨r, hr⟩ with pc := BitVec.ofNat 8 (n + 2) } := by
  subst hpc hptr
  rw [stepWith_own hopc he hn hop, harg]
  exact exec_pop_next hr hn

/-- The two cycles of `PUSH [p]; POP [p]` leave the pushed value in the slot, and every register as before. -/
theorem stepsWith_push_pop {opc : OpcodeMap} (hopc : opc.Valid) {s : State} {p : Byte} (hwf : s.mem.wf = true)
    (he : s.enabled = true) (hpc : s.pc.toNat + 4 < 256)
    (hpush : s.byteAt s.pc.toNat = opc .PUSH) (hp : s.byteAt (s.pc.toNat + 1) = p)
    (hpop : s.byteAt (s.pc.toNat + 2) = opc .POP) (hp' : s.byteAt (s.pc.toNat + 3) = p)
    (hr : s.pointed p < 8) (hslot : p ≠ s.regs[7] - 1)
    (hne2 : (s.regs[7] - 1).toNat ≠ s.pc.toNat + 2) (hne3 : (s.regs[7] - 1).toNat ≠ s.pc.toNat + 3) :
    stepsWith opc 2 s = some { s with
      mem := s.mem.write (s.regs[7] - 1).toNat ((s.setReg Config.spIndex s.pushSlot).reg ⟨s.pointed p, hr⟩)
      pc := BitVec.ofNat 8 (s.pc.toNat + 4) } := by
  generalize hv : (s.setReg Config.spIndex s.pushSlot).reg ⟨s.pointed p, hr⟩ = v
  have hpushed : stepWith opc s = .next { s.pushed v with pc := BitVec.ofNat 8 (s.pc.toNat + 2) } := by
    rw [stepWith_own hopc he (by omega) hpush, hp, ← hv]
    exact exec_push_next hr (by omega)
  have hpopped : stepWith opc { s.pushed v with pc := BitVec.ofNat 8 (s.pc.toNat + 2) } =
      .next { (s.pushed v).popped ⟨s.pointed p, hr⟩ with pc := BitVec.ofNat 8 (s.pc.toNat + 4) } := by
    have hpc' : (BitVec.ofNat 8 (s.pc.toNat + 2)).toNat = s.pc.toNat + 2 := by
      rw [BitVec.toNat_ofNat]
      omega
    exact stepWith_pop hopc (s := { s.pushed v with pc := BitVec.ofNat 8 (s.pc.toNat + 2) }) he hpc' (by omega)
      ((s.pushed_byteAt_ne v hne2.symm).trans hpop) ((s.pushed_byteAt_ne v hne3.symm).trans hp')
      (s.pushed_pointed_ne v hslot) hr
  rw [stepsWith_succ_of_next hpushed, stepsWith_succ_of_next hpopped]
  have hregs := State.popped_pushed_regs hwf ⟨s.pointed p, hr⟩
  rw [hv] at hregs
  exact congrArg (fun regs => some { s with
    regs := regs, mem := s.mem.write (s.regs[7] - 1).toNat v, pc := BitVec.ofNat 8 (s.pc.toNat + 4) }) hregs

/-- `PUSH [255]; POP [255]` with `SP` = 0, so that cell 255 is the stack slot; it names register 3, which holds 5. -/
def selfPointingPush : State where
  regs := #v[0, 0, 0, 5, 0, 0, 0, 0]
  pc := 0
  fl := 0
  running := true
  mem := [(0, 0x45), (1, 255), (2, 0x46), (3, 255), (255, 3)]
  fault := none
  out := []

/-- The PUSH has overwritten the pointer cell with 5, so the POP goes to register 5. -/
def selfPointingPop : State :=
  { selfPointingPush with
    regs := #v[0, 0, 0, 5, 0, 5, 0, 0], pc := 4
    mem := [(0, 0x45), (1, 255), (2, 0x46), (3, 255), (255, 5)] }

/-- Settles O57: the general case is `stepsWith_push_pop`; through the stack slot itself, two steps from
`selfPointingPush` end in `selfPointingPop`, with another register 5. -/
theorem pushThenPopRestores : Obligations.PushThenPopRestores := by
  constructor
  · intro opc s p r hr hopc hwf hrun hfault hpc hpush hp hpop hp' hptr hslot hne2 hne3
    have hlt : s.pointed p < 8 := hptr.symm.trans_lt hr
    have hsteps := stepsWith_push_pop hopc hwf (s.enabled_iff.mpr ⟨hrun, hfault⟩) hpc hpush hp hpop hp' hlt hslot
      hne2 hne3
    have hreg : (⟨s.pointed p, hlt⟩ : Fin 8) = ⟨r, hr⟩ := Fin.ext hptr.symm
    rw [hreg, s.decremented_reg hr] at hsteps
    exact ⟨_, hsteps, rfl, Memory.read_write_same hwf _ _, rfl⟩
  · exact ⟨selfPointingPush, selfPointingPop, 255, by decide⟩

end Sys2Proof.Machine
end
